-- ==== Sys2Proof/Word.lean ====
section
/-! DEFINITION. The machine's word (00_scope.md R6, R8). -/

namespace Sys2Proof

/-- A Word: "a 16-bit unsigned integral value; all arithmetic wraps modulo 2^16" (R8). Registers, memory cells,
addresses and instructions are Words. Bit 0 is the least significant (R9). -/
abbrev Word := BitVec 16

/-- Half a Word, as `Host.Cell` holds memory (log entry 1) and as an image file is divided (R104). No rule of the
core acts on one. -/
abbrev Byte := BitVec 8

end Sys2Proof
end

