-- ==== Sys2Proof/Config.lean ====
section
/-! DEFINITION. What is fixed for the machine: the sizes of 00_scope.md R6 and the two things the spec leaves open
about the Loader (R7, D10; R106). No instruction needs a free value (93_implementation_defined.md section 1). -/

namespace Sys2Proof

/-- Words in the memory array, `MEM_WORDS` (R6). -/
def Config.memWords : Nat := 65536

/-- The address of the first instruction of a run, `START_ADDR` (R6, R128). -/
def Config.startAddr : Word := 0x0000#16

/-- The canonical halt word, `HALT_WORD` (R6, R58). -/
def Config.haltWord : Word := 0x5000#16

/-- The two values `IMAGE_BYTE_ORDER` may take (R104). -/
inductive ByteOrder where
  /-- The file byte at offset `2k` is bits 7..0 of `img[k]`. -/
  | little
  /-- The file byte at offset `2k` is bits 15..8 of `img[k]`. -/
  | big
  deriving DecidableEq, Repr, Inhabited

/-- `IMAGE_BYTE_ORDER`, the Loader's open parameter (R7, R104, D10): no body, so no proof knows its value
(log entry 6). -/
opaque Config.imageByteOrder : ByteOrder

/-- The `LOAD_WORD`s, address and Word, that a failing Loader has done when it gives up, from the Words it had read: the
spec says only "any partial loading" (R106), so nothing constrains them (log entry 14). -/
opaque Config.partialLoad : List Word → List (Word × Word)

end Sys2Proof
end

