-- ==== Sys2Proof/Syntax.lean ====
section
/-! DEFINITION. The instructions: one constructor per row of spec/opcode_table.json (30_encoding.md R54). -/

namespace Sys2Proof

/-- The general-purpose registers R0..R7 (10_state.md R16): none is hardwired, none has another name (R17). -/
inductive Reg where
  | r0 | r1 | r2 | r3 | r4 | r5 | r6 | r7
  deriving DecidableEq, Repr

/-- A decoded instruction. A register field stands as the register it selects (R53). The immediate stands as the Word
the decoder's `immediate` function returns, already sign-extended (40_decoder.md R72). Ignored bits leave no trace
here (R50). -/
inductive Instr where
  /-- Opcode 0, shape RRR (R75). -/
  | add (rd rs1 rs2 : Reg)
  /-- Opcode 1, shape RRI (R76). -/
  | decrement (rd rs1 : Reg) (imm : Word)
  /-- Opcode 2, shape RRR (R77). -/
  | and (rd rs1 rs2 : Reg)
  /-- Opcode 3, shape RRR (R78). -/
  | xor (rd rs1 rs2 : Reg)
  /-- Opcode 4, shape RI: a load-immediate (R80, R81). -/
  | load (rd : Reg) (imm : Word)
  /-- Opcode 5, shape N (R82). -/
  | halt
  /-- Opcode 6, shape N: a no-op with a diagnostic (R84). -/
  | undefined6
  /-- Opcode 7 (R84). -/
  | undefined7
  /-- Opcode 8 (R84). -/
  | undefined8
  /-- Opcode 9 (R84). -/
  | undefined9
  /-- Opcode 10 (R84). -/
  | undefined10
  /-- Opcode 11 (R84). -/
  | undefined11
  /-- Opcode 12 (R84). -/
  | undefined12
  /-- Opcode 13 (R84). -/
  | undefined13
  /-- Opcode 14 (R84). -/
  | undefined14
  /-- Opcode 15 (R84). -/
  | undefined15
  deriving DecidableEq, Repr

end Sys2Proof
end

