-- ==== Sys2Proof/WellFormed.lean ====
section
/-! DEFINITION. The one check an instruction of this machine needs: its immediate is one of the 32 Words a five-bit
field can stand for (30_encoding.md R52). Every register is a register (R16), so no register operand needs a check. -/

namespace Sys2Proof

/-- "0x0000..0x000F (signed 0..15)" or "0xFFF0..0xFFFF (signed -16..-1)" (R52). -/
def immInRange (imm : Word) : Bool :=
  decide (-16 ≤ imm.toInt) && decide (imm.toInt ≤ 15)

/-- The encoding can hold the instruction's operands. -/
def Instr.wellFormed : Instr → Bool
  | .add _ _ _ => true
  | .decrement _ _ imm => immInRange imm
  | .and _ _ _ => true
  | .xor _ _ _ => true
  | .load _ imm => immInRange imm
  | .halt => true
  | .undefined6 => true
  | .undefined7 => true
  | .undefined8 => true
  | .undefined9 => true
  | .undefined10 => true
  | .undefined11 => true
  | .undefined12 => true
  | .undefined13 => true
  | .undefined14 => true
  | .undefined15 => true

/-- `Instr.wellFormed` as a proposition. -/
abbrev WellFormed (i : Instr) : Prop := i.wellFormed = true

end Sys2Proof
end

