-- ==== Sys2Proof/Decode.lean ====
section
/-! DEFINITION. The sign extender, the field functions, the decoder, the encoder, and the assembler's view of a Word
(30_encoding.md, 40_decoder.md). -/

namespace Sys2Proof

/-! ## Sign extender (40_decoder.md R64, R65) and the signed reading (00_scope.md R11) -/

/-- `signed(w)`: `w` if `w < 32768` and `w - 65536` otherwise (R11). -/
def signed (w : Word) : Int :=
  if w.toNat < 32768 then (w.toNat : Int) else (w.toNat : Int) - 65536

/-- `2^N - 1` as a Word: ones in the `n` low bits. -/
def lowMask (n : Nat) : Word := BitVec.ofNat 16 (2 ^ n - 1)

/-- `sext_N(v)` (R65): inspect bit `N-1`; if set, fill every bit from `N` to 15 with 1; otherwise the value unchanged. -/
def sext (n : Nat) (v : BitVec n) : Word :=
  if v.getLsbD (n - 1) then v.setWidth 16 ||| (0xFFFF#16 &&& ~~~ lowMask n) else v.setWidth 16

/-! ## Field functions (R68 to R72) -/

/-- `opcode(i) = (i >> 12) & 0xF = i[15:12]` (R68). -/
def opcode (w : Word) : BitVec 4 := w.extractLsb' 12 4

/-- `destination(i) = (i >> 9) & 0x7 = i[11:9]` (R69). -/
def destination (w : Word) : BitVec 3 := w.extractLsb' 9 3

/-- `sourceReg1(i) = (i >> 6) & 0x7 = i[8:6]` (R70). -/
def sourceReg1 (w : Word) : BitVec 3 := w.extractLsb' 6 3

/-- `sourceReg2(i) = i & 0x7 = i[2:0]` (R71). -/
def sourceReg2 (w : Word) : BitVec 3 := w.extractLsb' 0 3

/-- `imm5 = i[4:0]` (R52). -/
def imm5 (w : Word) : BitVec 5 := w.extractLsb' 0 5

/-- `immediate(i) = sext_5(i[4:0])`, extended once (R72). -/
def immediate (w : Word) : Word := sext 5 (imm5 w)

/-! ## Register indices (R53) -/

/-- "index `k` (0 to 7) selects `Rk`" (R16). -/
def Reg.ofIndex (k : BitVec 3) : Reg :=
  match k.toFin with
  | 0 => .r0
  | 1 => .r1
  | 2 => .r2
  | 3 => .r3
  | 4 => .r4
  | 5 => .r5
  | 6 => .r6
  | 7 => .r7

/-- The index that selects a register. -/
def Reg.index : Reg → BitVec 3
  | .r0 => 0#3
  | .r1 => 1#3
  | .r2 => 2#3
  | .r3 => 3#3
  | .r4 => 4#3
  | .r5 => 5#3
  | .r6 => 6#3
  | .r7 => 7#3

/-! ## Decoder (R54, R86) -/

/-- The instruction a Word is: chosen by the opcode alone (R54), total on every Word (R56), the bits its shape does
not use ignored (R50). An opcode is four bits (R68), so the last arm is opcode 15. -/
def decode (w : Word) : Instr :=
  match (opcode w).toNat with
  | 0 => .add (Reg.ofIndex (destination w)) (Reg.ofIndex (sourceReg1 w)) (Reg.ofIndex (sourceReg2 w))
  | 1 => .decrement (Reg.ofIndex (destination w)) (Reg.ofIndex (sourceReg1 w)) (immediate w)
  | 2 => .and (Reg.ofIndex (destination w)) (Reg.ofIndex (sourceReg1 w)) (Reg.ofIndex (sourceReg2 w))
  | 3 => .xor (Reg.ofIndex (destination w)) (Reg.ofIndex (sourceReg1 w)) (Reg.ofIndex (sourceReg2 w))
  | 4 => .load (Reg.ofIndex (destination w)) (immediate w)
  | 5 => .halt
  | 6 => .undefined6
  | 7 => .undefined7
  | 8 => .undefined8
  | 9 => .undefined9
  | 10 => .undefined10
  | 11 => .undefined11
  | 12 => .undefined12
  | 13 => .undefined13
  | 14 => .undefined14
  | _ => .undefined15

/-- Why a bit string handed in from outside is no instruction. Every Word is one (R56); only a length can be wrong. -/
inductive DecodeReject where
  /-- There are no bits. -/
  | noBits
  /-- There are more bits than the one Word every instruction is (R47). -/
  | longerThanAWord
  deriving DecidableEq, Repr

/-- Decode `nbits` bits of value `w`; bits of the Word above `nbits` are 0. -/
def decodeBits (nbits w : Nat) : Except DecodeReject Instr :=
  if nbits = 0 then .error .noBits
  else if 16 < nbits then .error .longerThanAWord
  else .ok (decode (BitVec.ofNat 16 (w % 2 ^ nbits)))

/-- The decoder on an instruction given as spec/opcode_table.json numbers its bits: one Word, bit 0 its least
significant. -/
def decodeTableWord (nbits w : Nat) : Option Instr :=
  match decodeBits nbits w with
  | .ok i => some i
  | .error _ => none

/-! ## Encoder: the canonical encoding (R60; D6: ignored bits are 0) -/

/-- `encode_RRR(op, rd, rs1, rs2) = (op << 12) | (rd << 9) | (rs1 << 6) | rs2` (R60). -/
def encodeRRR (op : BitVec 4) (rd rs1 rs2 : Reg) : Word :=
  (op.setWidth 16 <<< 12) ||| (rd.index.setWidth 16 <<< 9) ||| (rs1.index.setWidth 16 <<< 6) ||| rs2.index.setWidth 16

/-- `encode_RRI(op, rd, rs1, imm) = (op << 12) | (rd << 9) | (rs1 << 6) | (imm mod 32)` (R60). -/
def encodeRRI (op : BitVec 4) (rd rs1 : Reg) (imm : Word) : Word :=
  (op.setWidth 16 <<< 12) ||| (rd.index.setWidth 16 <<< 9) ||| (rs1.index.setWidth 16 <<< 6) ||| (imm &&& 0x1F#16)

/-- `encode_RI(op, rd, imm) = (op << 12) | (rd << 9) | (imm mod 32)` (R60). -/
def encodeRI (op : BitVec 4) (rd : Reg) (imm : Word) : Word :=
  (op.setWidth 16 <<< 12) ||| (rd.index.setWidth 16 <<< 9) ||| (imm &&& 0x1F#16)

/-- `encode_N(op) = (op << 12)` (R60). -/
def encodeN (op : BitVec 4) : Word := op.setWidth 16 <<< 12

/-- The opcode of an instruction (R54). -/
def Instr.opcode : Instr → BitVec 4
  | .add _ _ _ => 0#4
  | .decrement _ _ _ => 1#4
  | .and _ _ _ => 2#4
  | .xor _ _ _ => 3#4
  | .load _ _ => 4#4
  | .halt => 5#4
  | .undefined6 => 6#4
  | .undefined7 => 7#4
  | .undefined8 => 8#4
  | .undefined9 => 9#4
  | .undefined10 => 10#4
  | .undefined11 => 11#4
  | .undefined12 => 12#4
  | .undefined13 => 13#4
  | .undefined14 => 14#4
  | .undefined15 => 15#4

/-- The canonical Word of an instruction (R60, R61). -/
def encode (i : Instr) : Word :=
  match i with
  | .add rd rs1 rs2 => encodeRRR i.opcode rd rs1 rs2
  | .decrement rd rs1 imm => encodeRRI i.opcode rd rs1 imm
  | .and rd rs1 rs2 => encodeRRR i.opcode rd rs1 rs2
  | .xor rd rs1 rs2 => encodeRRR i.opcode rd rs1 rs2
  | .load rd imm => encodeRI i.opcode rd imm
  | .halt => encodeN i.opcode
  | .undefined6 => encodeN i.opcode
  | .undefined7 => encodeN i.opcode
  | .undefined8 => encodeN i.opcode
  | .undefined9 => encodeN i.opcode
  | .undefined10 => encodeN i.opcode
  | .undefined11 => encodeN i.opcode
  | .undefined12 => encodeN i.opcode
  | .undefined13 => encodeN i.opcode
  | .undefined14 => encodeN i.opcode
  | .undefined15 => encodeN i.opcode

/-! ## Shapes and ignored bits (R49, R50) -/

/-- The four shapes of R49. -/
inductive Shape where
  | RRR | RRI | RI | N
  deriving DecidableEq, Repr

/-- "Which fields each opcode uses gives four instruction shapes" (R49, R54). -/
def shapeOf (op : BitVec 4) : Shape :=
  match op.toNat with
  | 0 => .RRR
  | 1 => .RRI
  | 2 => .RRR
  | 3 => .RRR
  | 4 => .RI
  | _ => .N

/-- The bits a shape uses; the others are ignored (R49, R50). -/
def Shape.usedBits : Shape → Word
  | .RRR => 0b1111_111_111_000_111#16
  | .RRI => 0b1111_111_111_0_11111#16
  | .RI => 0b1111_111_0000_11111#16
  | .N => 0b1111_000000000000#16

/-! ## The assembler's view (R61, R63) -/

/-- What R61's assembler text stands for: an instruction with its operands, or `.word v`. The characters themselves
are the spec's presentation and are not modelled (log entry 11). -/
inductive AsmLine where
  | instr (i : Instr)
  | word (v : Word)
  deriving DecidableEq, Repr

/-- "A Word with opcode 0..5 disassembles to the syntax of rule R61 with its field values"; "a Word with opcode 6..15
disassembles as `.word 0xhhhh`" (R63). -/
def disassemble (w : Word) : AsmLine :=
  if (opcode w).toNat ≤ 5 then .instr (decode w) else .word w

/-- The Word an assembler line places (R61). -/
def assemble : AsmLine → Word
  | .instr i => encode i
  | .word v => v

end Sys2Proof
end

