-- ==== Sys2Proof/Machine/State.lean ====
section
/-! DEFINITION. The machine's state, the reasons a step can stop, and the state after reset (10_state.md). -/

namespace Sys2Proof.Machine

/-- The eight general-purpose registers, 16 bits each (R16). -/
structure RegFile where
  r0 : Word
  r1 : Word
  r2 : Word
  r3 : Word
  r4 : Word
  r5 : Word
  r6 : Word
  r7 : Word
  deriving DecidableEq, Repr

/-- "The architectural state of the simple-vm core is exactly four things, and nothing else" (R15). -/
structure State where
  /-- R0..R7 (R16). -/
  regs : RegFile
  /-- The program counter, a word address (R20). -/
  pc : Word
  /-- The running flag RUN (R24). `true` is Running, `false` is Halted (R25). -/
  run : Bool
  /-- The memory array (R27): the Word at address `a` is the cell at key `2a` (bits 7..0) and the cell at key `2a+1`
  (bits 15..8), in the canonical form `Memory.wf` (log entry 1). -/
  mem : List Host.Cell
  deriving DecidableEq, Repr

/-- The faults of the machine: none. "The hardware raises no synchronous exception, of any kind, from any instruction"
(R113), and a model "needs no fault outcome" (93_implementation_defined.md section 1). There is nobody to raise one,
so having none is exact (log entry 4). -/
inductive Fault where
  deriving DecidableEq, Repr

/-- The refusals of the machine. -/
inductive Refusal where
  /-- An instruction with no meaning in the model yet; raised by an arm of `exec` alone. No arm raises it: every row
  of the opcode table has its meaning. It would be safe: the model stops where the hardware goes on. -/
  | notModelled (mnemonic : String)
  deriving DecidableEq, Repr

/-- Every register zero (R30). -/
def RegFile.zero : RegFile :=
  { r0 := 0x0000#16, r1 := 0x0000#16, r2 := 0x0000#16, r3 := 0x0000#16
    r4 := 0x0000#16, r5 := 0x0000#16, r6 := 0x0000#16, r7 := 0x0000#16 }

/-- The machine right after reset (R30, R125): registers and PC zero, RUN true, every memory cell zero. -/
def State.reset : State :=
  { regs := RegFile.zero, pc := Config.startAddr, run := true, mem := [] }

end Sys2Proof.Machine
end

