-- ==== Sys2Proof/Machine/Ops.lean ====
section
/-! DEFINITION. The named operations over registers and memory. The machine takes no exception and has no trap entry and
no return from one (60_exceptions.md R113, R119, R120), so no such operation stands here. -/

namespace Sys2Proof.Machine

/-! ## Registers (10_state.md R16 to R19) -/

/-- `x[r]`. -/
def readReg (s : State) (r : Reg) : Word :=
  match r with
  | .r0 => s.regs.r0
  | .r1 => s.regs.r1
  | .r2 => s.regs.r2
  | .r3 => s.regs.r3
  | .r4 => s.regs.r4
  | .r5 => s.regs.r5
  | .r6 => s.regs.r6
  | .r7 => s.regs.r7

/-- The register file with `v` in `r`. -/
def RegFile.set (f : RegFile) (r : Reg) (v : Word) : RegFile :=
  match r with
  | .r0 => { f with r0 := v }
  | .r1 => { f with r1 := v }
  | .r2 => { f with r2 := v }
  | .r3 => { f with r3 := v }
  | .r4 => { f with r4 := v }
  | .r5 => { f with r5 := v }
  | .r6 => { f with r6 := v }
  | .r7 => { f with r7 := v }

/-- `x[r] <- v`: R0 is an ordinary register (R17). -/
def writeReg (s : State) (r : Reg) (v : Word) : State :=
  { s with regs := s.regs.set r v }

/-! ## The memory array as a canonical list of half Words (20_memory.md; log entry 1) -/

/-- What an unlisted half Word reads as: every cell is 0x0000 after reset (R30). -/
def Memory.unlisted : Byte := 0x00#8

/-- The first key past the array: two halves for each of its Words. -/
def Memory.keyBound : Nat := 2 * Config.memWords

/-- The half Word at key `k`. -/
def Memory.readByte : List Host.Cell → Nat → Byte
  | [], _ => Memory.unlisted
  | (j, b) :: rest, k => if j = k then b else Memory.readByte rest k

/-- The entry a half Word needs: none when it holds what an unlisted key reads as. -/
def Memory.entry (k : Nat) (v : Byte) : List Host.Cell :=
  if v = Memory.unlisted then [] else [(k, v)]

/-- Put the half Word `v` at key `k`, keeping the canonical form. -/
def Memory.writeByte : List Host.Cell → Nat → Byte → List Host.Cell
  | [], k, v => Memory.entry k v
  | (j, b) :: rest, k, v =>
    if k < j then Memory.entry k v ++ (j, b) :: rest
    else if j = k then Memory.entry k v ++ rest
    else (j, b) :: Memory.writeByte rest k v

/-- The canonical form: keys strictly rising, no entry equal to what an unlisted key reads as, no key outside the
array. -/
def Memory.wf (m : List Host.Cell) : Bool :=
  decide (m.Pairwise fun c d => c.1 < d.1) &&
    m.all fun c => decide (c.2 ≠ Memory.unlisted) && decide (c.1 < Memory.keyBound)

/-- The Word at address `a`. -/
def Memory.readWord (m : List Host.Cell) (a : Word) : Word :=
  Memory.readByte m (2 * a.toNat + 1) ++ Memory.readByte m (2 * a.toNat)

/-- The array with the Word `v` at address `a`. -/
def Memory.writeWord (m : List Host.Cell) (a v : Word) : List Host.Cell :=
  Memory.writeByte (Memory.writeByte m (2 * a.toNat) (v.extractLsb' 0 8)) (2 * a.toNat + 1) (v.extractLsb' 8 8)

/-- `MemRead(a, 1)`: the Word `MEM[a]`, for every address (R33). -/
def memRead (s : State) (a : Word) : Word := Memory.readWord s.mem a

/-- `MemWrite(a, 1, v)`: `MEM[a] <- v` and nothing else (R34). No instruction calls it (R36). -/
def memWrite (s : State) (a v : Word) : State :=
  { s with mem := Memory.writeWord s.mem a v }

/-! ## Program counter and fetch (10_state.md R20 to R23, 44_execution_loop.md R87) -/

/-- `instr = MemRead(pc, 1)`. -/
def fetch (s : State) : Word := memRead s s.pc

/-- `pc <- (pc + 1) mod 65536`. -/
def advancePc (s : State) : State := { s with pc := s.pc + 1#16 }

/-- The instruction the next step runs. -/
def fetchInstr (s : State) : Instr := decode (fetch s)

/-- A state whose next step fetches the Word `w`: `w` stands at PC and RUN is true (log entry 5). -/
def placeForFetch (s : State) (w : Word) : State :=
  { memWrite s s.pc w with run := true }

end Sys2Proof.Machine
end

