-- ==== Sys2Proof/Machine/Flags.lean ====
section
/-! DEFINITION. The machine's one flag, RUN. "There are no condition codes, no carry, overflow, zero or negative flags,
and no predicate registers" (10_state.md R26), so no instruction computes another. -/

namespace Sys2Proof.Machine

/-- The loop's test: another step happens only while RUN is true (R24, R88). -/
def isRunning (s : State) : Bool := s.run

/-- `run <- false`: halt's one write (R82). -/
def clearRun (s : State) : State := { s with run := false }

/-- `run = false`: "there is no step" and the state stays as it is (R83, R88, 95_test_vectors.md 2.7; log entry 2). -/
def whenHalted (s : State) : Host.Outcome State Fault Refusal := .next s

end Sys2Proof.Machine
end

