-- ==== Sys2Proof/Machine/Operands.lean ====
section
/-! DEFINITION. The operand forms (30_encoding.md R53: registers and the immediate, no other) and the arithmetic and
logic the handlers share (41_arith_logic.md R74, R79). -/

namespace Sys2Proof.Machine

/-- The operand of a source-register field: the register's value before the handler writes anything (R74). -/
def srcReg (s : State) (r : Reg) : Word := readReg s r

/-- The immediate operand: the decoder has sign-extended it already (R72). -/
def srcImm (imm : Word) : Word := imm

/-- "writes the result into the register named by the destination field" (R74), and nothing else. -/
def writeResult (rd : Reg) (result : Word) (s : State) : Host.Outcome State Fault Refusal :=
  .next (writeReg s rd result)

/-- `(a + b) mod 65536` (R75). -/
def aluAdd (a b : Word) : Word := a + b

/-- `(a - b) mod 65536` (R76). -/
def aluSub (a b : Word) : Word := a - b

/-- `a & b` (R77). -/
def aluAnd (a b : Word) : Word := a &&& b

/-- `a ^ b` (R78). -/
def aluXor (a b : Word) : Word := a ^^^ b

end Sys2Proof.Machine
end

