-- ==== Sys2Proof/Machine/ArithLogic.lean ====
section
/-! DEFINITION. add, decrement, and, xor (41_arith_logic.md). Each handler's result is a function of its own, since the
handler both writes it and returns it for the trace record (R74). -/

namespace Sys2Proof.Machine

/-- add's result: reg[sourceReg1] + reg[sourceReg2], wrapped (R75). -/
def resultAdd (rs1 rs2 : Reg) (s : State) : Word := aluAdd (srcReg s rs1) (srcReg s rs2)

/-- add (R75). -/
def execAdd (rd rs1 rs2 : Reg) (s : State) : Host.Outcome State Fault Refusal :=
  writeResult rd (resultAdd rs1 rs2 s) s

/-- decrement's result: reg[sourceReg1] − signExtend(immediate), wrapped (R76). -/
def resultDecrement (rs1 : Reg) (imm : Word) (s : State) : Word := aluSub (srcReg s rs1) (srcImm imm)

/-- decrement: a three-operand subtract-immediate, whatever its name suggests (R76, C7). -/
def execDecrement (rd rs1 : Reg) (imm : Word) (s : State) : Host.Outcome State Fault Refusal :=
  writeResult rd (resultDecrement rs1 imm s) s

/-- and's result: reg[sourceReg1] & reg[sourceReg2] (R77). -/
def resultAnd (rs1 rs2 : Reg) (s : State) : Word := aluAnd (srcReg s rs1) (srcReg s rs2)

/-- and (R77). -/
def execAnd (rd rs1 rs2 : Reg) (s : State) : Host.Outcome State Fault Refusal :=
  writeResult rd (resultAnd rs1 rs2 s) s

/-- xor's result: reg[sourceReg1] ^ reg[sourceReg2] (R78). -/
def resultXor (rs1 rs2 : Reg) (s : State) : Word := aluXor (srcReg s rs1) (srcReg s rs2)

/-- xor (R78). -/
def execXor (rd rs1 rs2 : Reg) (s : State) : Host.Outcome State Fault Refusal :=
  writeResult rd (resultXor rs1 rs2 s) s

end Sys2Proof.Machine
end

