-- ==== Sys2Proof/Machine/HaltUndefined.lean ====
section
/-! DEFINITION. halt and the ten undefined opcodes (43_halt_undefined.md). -/

namespace Sys2Proof.Machine

/-- The value halt returns for tracing: its opcode (R82). -/
def resultHalt : Word := 5#16

/-- halt: clears RUN and nothing else (R82). PC already stands one past the halt Word (R83). -/
def execHalt (s : State) : Host.Outcome State Fault Refusal := .next (clearRun s)

/-- The dispatch of an undefined opcode: no handler runs, no state is written, execution continues (R84). Its diagnostic
is an output, `TraceRecord.undef` (R85). -/
def undefinedNoOp (s : State) : Host.Outcome State Fault Refusal := .next s

/-- undefined_6: a no-op (R84). -/
def execUndefined6 (s : State) : Host.Outcome State Fault Refusal := undefinedNoOp s

/-- undefined_7: a no-op (R84). -/
def execUndefined7 (s : State) : Host.Outcome State Fault Refusal := undefinedNoOp s

/-- undefined_8: a no-op (R84). -/
def execUndefined8 (s : State) : Host.Outcome State Fault Refusal := undefinedNoOp s

/-- undefined_9: a no-op (R84). -/
def execUndefined9 (s : State) : Host.Outcome State Fault Refusal := undefinedNoOp s

/-- undefined_10: a no-op (R84). -/
def execUndefined10 (s : State) : Host.Outcome State Fault Refusal := undefinedNoOp s

/-- undefined_11: a no-op (R84). -/
def execUndefined11 (s : State) : Host.Outcome State Fault Refusal := undefinedNoOp s

/-- undefined_12: a no-op (R84). -/
def execUndefined12 (s : State) : Host.Outcome State Fault Refusal := undefinedNoOp s

/-- undefined_13: a no-op (R84). -/
def execUndefined13 (s : State) : Host.Outcome State Fault Refusal := undefinedNoOp s

/-- undefined_14: a no-op (R84). -/
def execUndefined14 (s : State) : Host.Outcome State Fault Refusal := undefinedNoOp s

/-- undefined_15: a no-op (R84). -/
def execUndefined15 (s : State) : Host.Outcome State Fault Refusal := undefinedNoOp s

end Sys2Proof.Machine
end

