-- ==== Sys2Proof/Machine/LoadImmediate.lean ====
section
/-! DEFINITION. load (42_load_immediate.md): a constant from the instruction Word into a register, no memory access
(R81). -/

namespace Sys2Proof.Machine

/-- load's result: the sign-extended immediate, "independent of prior register contents" (R80). -/
def resultLoad (imm : Word) : Word := srcImm imm

/-- load (R80). -/
def execLoad (rd : Reg) (imm : Word) (s : State) : Host.Outcome State Fault Refusal :=
  writeResult rd (resultLoad imm) s

end Sys2Proof.Machine
end

