-- ==== Sys2Proof/Machine/Dispatch.lean ====
section
/-! DEFINITION. The dispatcher (44_execution_loop.md R86): one arm per constructor of Instr. -/

namespace Sys2Proof.Machine

/-- The handler of the instruction, on the state the loop has already advanced PC in (R86, R87). -/
def exec (i : Instr) (s : State) : Host.Outcome State Fault Refusal :=
  match i with
  | .add rd rs1 rs2 => Sys2Proof.Machine.execAdd rd rs1 rs2 s
  | .decrement rd rs1 imm => Sys2Proof.Machine.execDecrement rd rs1 imm s
  | .and rd rs1 rs2 => Sys2Proof.Machine.execAnd rd rs1 rs2 s
  | .xor rd rs1 rs2 => Sys2Proof.Machine.execXor rd rs1 rs2 s
  | .load rd imm => Sys2Proof.Machine.execLoad rd imm s
  | .halt => Sys2Proof.Machine.execHalt s
  | .undefined6 => Sys2Proof.Machine.execUndefined6 s
  | .undefined7 => Sys2Proof.Machine.execUndefined7 s
  | .undefined8 => Sys2Proof.Machine.execUndefined8 s
  | .undefined9 => Sys2Proof.Machine.execUndefined9 s
  | .undefined10 => Sys2Proof.Machine.execUndefined10 s
  | .undefined11 => Sys2Proof.Machine.execUndefined11 s
  | .undefined12 => Sys2Proof.Machine.execUndefined12 s
  | .undefined13 => Sys2Proof.Machine.execUndefined13 s
  | .undefined14 => Sys2Proof.Machine.execUndefined14 s
  | .undefined15 => Sys2Proof.Machine.execUndefined15 s

end Sys2Proof.Machine
end

