-- ==== Sys2Proof/Machine/Step.lean ====
section
/-! DEFINITION. One step of the core (44_execution_loop.md R87, R88). -/

namespace Sys2Proof.Machine

/-- While RUN is true: fetch, increment PC, decode, dispatch, in this order (R87). While it is false: no step (R88).
The host's enable `go` is the host's (R101): this is the step taken when it is asserted; `stepWhen` gates it. -/
def step (s : State) : Host.Outcome State Fault Refusal :=
  if isRunning s then exec (fetchInstr s) (advancePc s) else whenHalted s

/-- `s` with the instruction of `nbits` bits and value `w` where `step` fetches next, and RUN true, so that the next
step runs it (log entry 5). Every instruction is one Word (R47); bits above `nbits` are 0. -/
def State.withFetchWord (s : State) (nbits w : Nat) : State :=
  placeForFetch s (BitVec.ofNat 16 (w % 2 ^ nbits))

end Sys2Proof.Machine
end

