-- ==== Sys2Proof/Machine/Trace.lean ====
section
/-! DEFINITION. The trace record (44_execution_loop.md R97, 43_halt_undefined.md R85): an output of a step, not state. No
rule of the core reads it. -/

namespace Sys2Proof.Machine

/-- The record `{opcode, result, undef}` (R97). -/
structure TraceRecord where
  /-- The opcode of the instruction. -/
  opcode : BitVec 4
  /-- The Word the handler returned; absent for an undefined opcode (R85). -/
  result : Option Word
  /-- The undefined-opcode diagnostic: true exactly for opcodes 6..15 (R85). -/
  undef : Bool
  deriving DecidableEq, Repr

/-- The Word the dispatcher returns for an instruction run in `s` (R74, R82, R85). -/
def handlerResult (i : Instr) (s : State) : Option Word :=
  match i with
  | .add _ rs1 rs2 => some (resultAdd rs1 rs2 s)
  | .decrement _ rs1 imm => some (resultDecrement rs1 imm s)
  | .and _ rs1 rs2 => some (resultAnd rs1 rs2 s)
  | .xor _ rs1 rs2 => some (resultXor rs1 rs2 s)
  | .load _ imm => some (resultLoad imm)
  | .halt => some resultHalt
  | .undefined6 => none
  | .undefined7 => none
  | .undefined8 => none
  | .undefined9 => none
  | .undefined10 => none
  | .undefined11 => none
  | .undefined12 => none
  | .undefined13 => none
  | .undefined14 => none
  | .undefined15 => none

/-- The operand values a trace may show: "`x[rs1]`, `x[rs2]` and `immediate(instr)` as read by the handler" (R97), in
that order (log entry 7). -/
def operandValues (i : Instr) (s : State) : List Word :=
  match i with
  | .add _ rs1 rs2 => [srcReg s rs1, srcReg s rs2]
  | .decrement _ rs1 imm => [srcReg s rs1, srcImm imm]
  | .and _ rs1 rs2 => [srcReg s rs1, srcReg s rs2]
  | .xor _ rs1 rs2 => [srcReg s rs1, srcReg s rs2]
  | .load _ imm => [srcImm imm]
  | .halt => []
  | .undefined6 => []
  | .undefined7 => []
  | .undefined8 => []
  | .undefined9 => []
  | .undefined10 => []
  | .undefined11 => []
  | .undefined12 => []
  | .undefined13 => []
  | .undefined14 => []
  | .undefined15 => []

/-- The record of an instruction run in `s`. -/
def traceOf (i : Instr) (s : State) : TraceRecord :=
  { opcode := i.opcode, result := handlerResult i s, undef := decide (6 ≤ i.opcode.toNat) }

/-- The record of the step taken from `s`; none when no step happens (R88, `tr_valid` of R112). -/
def stepTrace (s : State) : Option TraceRecord :=
  if isRunning s then some (traceOf (fetchInstr s) (advancePc s)) else none

end Sys2Proof.Machine
end

