-- ==== Sys2Proof/Machine/HostInterface.lean ====
section
/-! DEFINITION. What the host does to the core (50_host_interface.md, 70_reset_and_hazards.md): the transactions, the
Loader's contract, observation, and the run loop. `step` is the core's alone; nothing here changes what it does. -/

namespace Sys2Proof.Machine

/-- One transaction after another: the second starts where the first ends. -/
def andThen {α β : Type} (o : Host.Outcome α Fault Refusal) (f : α → Host.Outcome β Fault Refusal) :
    Host.Outcome β Fault Refusal :=
  match o with
  | .next a => f a
  | .fault r => .fault r
  | .refused r => .refused r

/-! ## RESET, LOAD_WORD, OBSERVE (R98 to R100, R108, R109) -/

/-- `RESET`: every piece of state takes its reset value, from any state (R99, R125, R126). -/
def hostReset (s : State) : State :=
  { s with regs := RegFile.zero, pc := Config.startAddr, run := true, mem := [] }

/-- `LOAD_WORD(a, v)`: honoured only while `go` is not asserted; otherwise ignored (R100). -/
def loadWord (go : Bool) (a v : Word) (s : State) : State :=
  if go then s else memWrite s a v

/-- What `OBSERVE` returns: R0..R7, PC and RUN; memory is no part of it (R108). -/
structure Observation where
  regs : RegFile
  pc : Word
  run : Bool
  deriving DecidableEq, Repr

/-- `OBSERVE` (R108): it returns a value and changes nothing. -/
def observe (s : State) : Observation := { regs := s.regs, pc := s.pc, run := s.run }

/-- The signed presentation of a general-purpose register (R109). -/
def observeSigned (s : State) (r : Reg) : Int := signed (readReg s r)

/-- PC too is presented signed (R109). -/
def observeSignedPc (s : State) : Int := signed s.pc

/-! ## The core with its host: `go` and the transactions (R98, R101) -/

/-- The core and the host's execution enable. `go` is an input, "not part of the architectural state" (R101), so it
stands beside State, not in it (log entry 3). -/
structure HostSystem where
  core : State
  go : Bool
  deriving DecidableEq, Repr

/-- `STEP`, enabled when `go` is asserted and RUN is true (R88, R98, R101); otherwise "all state holds". -/
def stepWhen (go : Bool) (s : State) : Host.Outcome State Fault Refusal :=
  if go then step s else .next s

/-- The closed list of R98: four things the host can do, one the core does on its own. -/
inductive Transaction where
  | reset
  | loadWord (a v : Word)
  | observe
  | setGo (b : Bool)
  | step
  deriving DecidableEq, Repr

/-- The column "enabled when" of R98's table. -/
def enabled (t : Transaction) (x : HostSystem) : Bool :=
  match t with
  | .reset => true
  | .loadWord _ _ => !x.go
  | .observe => true
  | .setGo _ => true
  | .step => x.go && isRunning x.core

/-- The effect of one transaction (R98). One that is not enabled changes nothing (R88, R100, R101). -/
def transact (t : Transaction) (x : HostSystem) : Host.Outcome HostSystem Fault Refusal :=
  match t with
  | .reset => .next { x with core := hostReset x.core }
  | .loadWord a v => .next { x with core := loadWord x.go a v x.core }
  | .observe => .next x
  | .setGo b => .next { x with go := b }
  | .step => andThen (stepWhen x.go x.core) fun s => .next { x with core := s }

/-- Transactions one after another. -/
def transactAll : List Transaction → HostSystem → Host.Outcome HostSystem Fault Refusal
  | [], x => .next x
  | t :: rest, x => andThen (transact t x) (transactAll rest)

/-! ## One instant of the core's inputs (R99, R112, R118) -/

/-- The inputs of R112 that carry meaning: `rst`, `go`, and the load port when it is written. -/
structure Inputs where
  rst : Bool
  go : Bool
  load : Option (Word × Word)
  deriving DecidableEq, Repr

/-- What the core does at one instant: RESET "takes priority over every other transaction" (R99), and a load "while
`go` is asserted is ignored" (R100). -/
def instant (inp : Inputs) (s : State) : Host.Outcome State Fault Refusal :=
  if inp.rst then .next (hostReset s)
  else if inp.go then step s
  else
    match inp.load with
    | some (a, v) => .next (loadWord inp.go a v s)
    | none => .next s

/-! ## The Loader's contract (R102 to R107) -/

/-- The Word two bytes of an image file make (R104). -/
def wordOfBytes (order : ByteOrder) (first second : Byte) : Word :=
  match order with
  | .little => second ++ first
  | .big => first ++ second

/-- A file's bytes as the Words of its image: `floor(length/2)` of them, an odd trailing byte dropped (R104). -/
def imageOfBytes (order : ByteOrder) : List Byte → List Word
  | first :: second :: rest => wordOfBytes order first second :: imageOfBytes order rest
  | [_] => []
  | [] => []

/-- What the Loader gets when it reads an image: all of its Words, or a failure after the Words read so far ("missing/
unreadable file", R106; a missing file gives none). -/
inductive Image where
  | words (img : List Word)
  | unreadable (got : List Word)
  deriving DecidableEq, Repr

/-- An image as a file: its bytes, or the bytes read before reading failed (R104, R106). -/
inductive ImageFile where
  | readable (bytes : List Byte)
  | unreadable (bytes : List Byte)
  deriving DecidableEq, Repr

/-- The image of a file (R104). -/
def imageOfFile (order : ByteOrder) : ImageFile → Image
  | .readable bytes => .words (imageOfBytes order bytes)
  | .unreadable bytes => .unreadable (imageOfBytes order bytes)

/-- Load failure: an image that cannot be read (R106), and one of 65536 Words or more (R105). -/
def loadFails : Image → Bool
  | .words img => decide (Config.memWords ≤ img.length)
  | .unreadable _ => true

/-- `LOAD_WORD(k, img[k])` for the image's Words from address `k` on (R102). -/
def imageWrites : Nat → List Word → List (Word × Word)
  | _, [] => []
  | k, w :: rest => (BitVec.ofNat 16 k, w) :: imageWrites (k + 1) rest

/-- "`N = 0`, or `N >= 1` and `img[N-1] != 0x5000`" (R103). -/
def needsHalt (img : List Word) : Bool :=
  match img.getLast? with
  | none => true
  | some w => w != Config.haltWord

/-- `LOAD_WORD(N, 0x5000)` where R103 asks for it. -/
def haltWrites (img : List Word) : List (Word × Word) :=
  if needsHalt img then [(BitVec.ofNat 16 img.length, Config.haltWord)] else []

/-- The Words the Loader has to go on: all of the image, or those it got. -/
def Image.read : Image → List Word
  | .words img => img
  | .unreadable got => got

/-- The `LOAD_WORD`s the Loader performs, in order: the image and the halt Word (R102, R103); where the load fails,
whatever partial loading it did, which the spec leaves open (R106; log entry 14). -/
def loaderWrites (im : Image) : List (Word × Word) :=
  if loadFails im then Config.partialLoad im.read else imageWrites 0 im.read ++ haltWrites im.read

/-- `LOAD_WORD`s one after another, `go` not asserted. -/
def applyLoads : List (Word × Word) → State → State
  | [], s => s
  | (a, v) :: rest, s => applyLoads rest (loadWord false a v s)

/-- What the Loader reports to its caller, and the core it leaves. -/
inductive LoadResult where
  /-- The image is loaded: the launch state of its run (R107). -/
  | launched (s : State)
  /-- "reported to the caller as a load failure; the machine performs no execution for that image" (R106): the state is
  "as `RESET` and any partial loading left it". -/
  | failed (s : State)
  deriving DecidableEq, Repr

/-- RESET and load, from whatever state the core was in (R106, R107, R111 (1) and (2)). -/
def launch (im : Image) (s : State) : LoadResult :=
  if loadFails im then .failed (applyLoads (loaderWrites im) (hostReset s))
  else .launched (applyLoads (loaderWrites im) (hostReset s))

/-- Load a file, in the Loader's byte order. -/
def launchFile (file : ImageFile) (s : State) : LoadResult := launch (imageOfFile Config.imageByteOrder file) s

/-! ## One program run, and one after another (R111) -/

/-- Steps 1 and 2 of R111 as transactions: RESET, then the Loader's writes. -/
def loadTransactions (im : Image) : List Transaction :=
  .reset :: (loaderWrites im).map fun p => .loadWord p.1 p.2

/-- Step 4 of R111: "the core steps until `run = false`", for at most `fuel` steps (log entry 18). -/
def stepUntilHalted : Nat → HostSystem → Host.Outcome HostSystem Fault Refusal
  | 0, x => .next x
  | fuel + 1, x => if isRunning x.core then andThen (transact .step x) (stepUntilHalted fuel) else .next x

/-- How a program run ended. -/
inductive RunReport where
  /-- The load failed; nothing was executed (R106). -/
  | loadFailure
  /-- The run halted, and this was observed (R94, R108). -/
  | halted (o : Observation)
  /-- The fuel ran out first: "not yet halted", never Halted (R89). -/
  | notYetHalted
  deriving DecidableEq, Repr

/-- Steps 4 to 6 of R111: step until `run = false`, OBSERVE, deassert `go`. A run that is not yet halted keeps `go`
asserted, as the host is assumed to (R101). -/
def runToEnd (fuel : Nat) (x : HostSystem) : Host.Outcome (HostSystem × RunReport) Fault Refusal :=
  andThen (stepUntilHalted fuel x) fun y =>
    if isRunning y.core then .next (y, .notYetHalted)
    else andThen (transactAll [.observe, .setGo false] y) fun z => .next (z, .halted (observe y.core))

/-- One program run in the order of R111: (1) RESET; (2) the Loader's writes, "or a load failure, in which case stop
here"; (3) assert `go`; (4) to (6) as `runToEnd`. -/
def programRun (fuel : Nat) (im : Image) (x : HostSystem) : Host.Outcome (HostSystem × RunReport) Fault Refusal :=
  andThen (transactAll (loadTransactions im) x) fun y =>
    if loadFails im then .next (y, .loadFailure)
    else andThen (transact (.setGo true) y) (runToEnd fuel)

/-- A whole program run: some number of steps is enough for it to end, with its load failure or halted (R111, whose step
4 sets no bound on the steps). -/
def ProgramRunEnds (im : Image) (x y : HostSystem) (r : RunReport) : Prop :=
  r ≠ .notYetHalted ∧ ∃ fuel, programRun fuel im x = .next (y, r)

/-- "for the next image go to (1)" (R111): the images in turn, with their reports. A run that is not yet halted is the
last, since the core is still running it. -/
def programRuns (fuel : Nat) : List Image → HostSystem → Host.Outcome (HostSystem × List RunReport) Fault Refusal
  | [], x => .next (x, [])
  | im :: rest, x =>
    andThen (programRun fuel im x) fun p =>
      if p.2 = .notYetHalted then .next (p.1, [p.2])
      else andThen (programRuns fuel rest p.1) fun q => .next (q.1, p.2 :: q.2)

/-! ## The execution loop under fuel (R89) -/

/-- Where the loop stands when its fuel is used up or RUN is false. -/
inductive LoopState where
  /-- `run = false`: Halted, terminal; the end of the run (R89, R94). -/
  | halted (s : State)
  /-- The fuel ran out: "not yet halted", never Halted (R89). -/
  | notYetHalted (s : State)
  deriving DecidableEq, Repr

/-- `while run: step()` (R89), for at most `fuel` steps. -/
def runLoop : Nat → State → Host.Outcome LoopState Fault Refusal
  | 0, s => if isRunning s then .next (.notYetHalted s) else .next (.halted s)
  | fuel + 1, s =>
    if isRunning s then andThen (step s) (runLoop fuel) else .next (.halted s)

end Sys2Proof.Machine
end

