-- ==== Sys2Proof/Safety.lean ====
section
/-! DEFINITION. The terms the claims are stated in. -/

namespace Sys2Proof.Safety

open Sys2Proof.Machine

/-- `Running`: `run = true` (10_state.md R25). -/
abbrev Running (s : State) : Prop := s.run = true

/-- `Halted`: `run = false` (R25). -/
abbrev Halted (s : State) : Prop := s.run = false

/-- The invariant of the memory's representation: its list is in canonical form. -/
abbrev MemoryCanonical (s : State) : Prop := Memory.wf s.mem = true

/-- Every cell of the memory array holds what it held (R36). -/
abbrev SameMemory (s t : State) : Prop := ∀ a : Word, memRead t a = memRead s a

/-- A handler's frame (R74): the registers but `rd`, PC, RUN and every memory cell are as they were. -/
def OnlyWritesReg (rd : Reg) (s t : State) : Prop :=
  (∀ r : Reg, r ≠ rd → readReg t r = readReg s r) ∧ t.pc = s.pc ∧ t.run = s.run ∧ SameMemory s t

/-- The `k`-th address in fetch order from where the machine stands (R91). -/
def fetchAddr (s : State) (k : Nat) : Word := s.pc + BitVec.ofNat 16 k

/-- The Word at an address halts the machine: its opcode is 5 (R58, R82). -/
abbrev HaltsAt (s : State) (a : Word) : Prop := opcode (memRead s a) = 5#4

/-- `k` steps of the core, one after another. -/
def runSteps (k : Nat) (s : State) : Host.Outcome State Fault Refusal := Host.Core.run Sys2Proof.core k s

/-- The ten instructions of the undefined opcodes (R55). -/
def undefinedInstrs : List Instr :=
  [.undefined6, .undefined7, .undefined8, .undefined9, .undefined10, .undefined11, .undefined12, .undefined13,
    .undefined14, .undefined15]

end Sys2Proof.Safety
end

