-- ==== Sys2Proof/Certificates/Slice0/Obligations.lean ====
section
/-! DEFINITION. The statements for the provers. Each docstring says which rule of spec/ it formalises. -/

open Sys2Proof Sys2Proof.Machine Sys2Proof.Safety

/-! ## Reset -/

/-- R30, R125: after reset, whatever came before, every register and PC hold 0x0000, RUN is true, every memory cell
holds 0x0000. -/
def Obligations.ResetLeavesTheSpecValues : Prop :=
  ∀ s u : State, u = State.reset ∨ u = hostReset s →
    (∀ r : Reg, readReg u r = 0x0000#16) ∧ u.pc = 0x0000#16 ∧ u.run = true ∧ ∀ a : Word, memRead u a = 0x0000#16

/-- The invariant of the memory's representation (log entry 1) holds at reset and after RESET from any state. -/
def Obligations.ResetMemoryIsCanonical : Prop :=
  MemoryCanonical State.reset ∧ ∀ s : State, MemoryCanonical (hostReset s)

/-! ## Sign extender and decoder -/

/-- R64: at every width from 1 to 16 the sign extender keeps the field's two's-complement value. -/
def Obligations.SignExtensionKeepsTheSignedValue : Prop :=
  ∀ (n : Nat) (v : BitVec n), 1 ≤ n → n ≤ 16 →
    signed (sext n v) = if v.toNat < 2 ^ (n - 1) then (v.toNat : Int) else (v.toNat : Int) - 2 ^ n

/-- R65: bits below the width are the field's, every bit from the width to 15 is its sign bit; at width 5 the fill is
0xFFE0, at width 16 the function is the identity. -/
def Obligations.SignExtensionFillsToBitFifteen : Prop :=
  (∀ (n : Nat) (v : BitVec n) (k : Nat), 1 ≤ n → n ≤ 16 → k < 16 →
    (sext n v).getLsbD k = if k < n then v.getLsbD k else v.getLsbD (n - 1)) ∧
  (∀ v : BitVec 5, (16 ≤ v.toNat → sext 5 v = v.setWidth 16 ||| 0xFFE0#16) ∧
    (v.toNat ≤ 15 → sext 5 v = v.setWidth 16)) ∧
  ∀ v : BitVec 16, sext 16 v = v

/-- R68 to R71: the four extractors are the shifts and masks of the spec, on every Word. -/
def Obligations.FieldsAreShiftAndMask : Prop :=
  ∀ w : Word,
    (opcode w).toNat = (w.toNat >>> 12) &&& 0xF ∧
    (destination w).toNat = (w.toNat >>> 9) &&& 0x7 ∧
    (sourceReg1 w).toNat = (w.toNat >>> 6) &&& 0x7 ∧
    (sourceReg2 w).toNat = w.toNat &&& 0x7

/-- R52, R66, R72: the immediate is `w mod 32` read as a signed five-bit number, one of the 32 Words of R52, and
extending its low five bits again changes nothing. -/
def Obligations.ImmediateIsTheSignedLowFiveBits : Prop :=
  ∀ w : Word,
    signed (immediate w) = (if w.toNat % 32 < 16 then ((w.toNat % 32 : Nat) : Int) else ((w.toNat % 32 : Nat) : Int) - 32) ∧
    immInRange (immediate w) = true ∧ sext 5 (imm5 (immediate w)) = immediate w

/-- R54, R56: the opcode alone chooses the operation, `(w & 0xF000) == match(X)`; what decoding gives is well-formed. -/
def Obligations.DecodeChoosesByOpcode : Prop :=
  ∀ w : Word, (decode w).opcode = opcode w ∧ w &&& 0xF000#16 = encodeN (decode w).opcode ∧ WellFormed (decode w)

/-- R50: two Words that agree on the bits their shape uses are the same instruction. -/
def Obligations.IgnoredBitsDoNotMatter : Prop :=
  ∀ w v : Word, w &&& (shapeOf (opcode w)).usedBits = v &&& (shapeOf (opcode w)).usedBits → decode w = decode v

/-- R60: the encoder is the inverse of decoding, for every well-formed instruction. -/
def Obligations.DecodeOfEncodeIsTheInstruction : Prop :=
  ∀ i : Instr, WellFormed i → decode (encode i) = i

/-- R60: the canonical encoding as a number: opcode * 4096 + rd * 512 + rs1 * 64 + (rs2, or the immediate mod 32). -/
def Obligations.CanonicalEncodingIsTheSumOfItsFields : Prop :=
  ∀ (op : BitVec 4) (rd rs1 rs2 : Reg) (imm : Word),
    (encodeRRR op rd rs1 rs2).toNat =
      op.toNat * 4096 + rd.index.toNat * 512 + rs1.index.toNat * 64 + rs2.index.toNat ∧
    (encodeRRI op rd rs1 imm).toNat =
      op.toNat * 4096 + rd.index.toNat * 512 + rs1.index.toNat * 64 + imm.toNat % 32 ∧
    (encodeRI op rd imm).toNat = op.toNat * 4096 + rd.index.toNat * 512 + imm.toNat % 32 ∧
    (encodeN op).toNat = op.toNat * 4096

/-- R50, R60, R63: encoding what a Word decodes to gives the Word with its ignored bits 0, and assembling a Word's
disassembly does so for opcodes 0..5 and gives the Word itself for the others. -/
def Obligations.EncodeOfDecodeIsTheCanonicalWord : Prop :=
  ∀ w : Word, encode (decode w) = w &&& (shapeOf (opcode w)).usedBits ∧
    assemble (disassemble w) = if (opcode w).toNat ≤ 5 then w &&& (shapeOf (opcode w)).usedBits else w

/-- 95_test_vectors.md 2.2: Words written out from the encoding decode to what they stand for (a sanity statement). -/
def Obligations.WrittenOutWordsDecode : Prop :=
  decode 0b0000_001_010_000_011#16 = .add .r1 .r2 .r3 ∧
  decode 0b0001_011_100_011_111#16 = .decrement .r3 .r4 0xFFFF#16 ∧
  decode 0b0010_100_011_000_010#16 = .and .r4 .r3 .r2 ∧
  decode 0b0011_011_010_000_001#16 = .xor .r3 .r2 .r1 ∧
  decode 0b0100_111_000_010_000#16 = .load .r7 0xFFF0#16 ∧
  decode 0b0101_000_000_000_000#16 = .halt ∧
  decode 0b1001_101_010_111_100#16 = .undefined9

/-! ## The instructions -/

/-- R75: add writes (a + b) mod 65536 to its destination, returns it for the trace, and changes nothing else, whichever
registers coincide; a Word of opcode 0 is add of its three register fields. -/
def Obligations.AddWritesTheWrappedSum : Prop :=
  (∀ (rd rs1 rs2 : Reg) (s : State), ∃ t, exec (.add rd rs1 rs2) s = .next t ∧
    (readReg t rd).toNat = ((readReg s rs1).toNat + (readReg s rs2).toNat) % 65536 ∧
    OnlyWritesReg rd s t ∧ (traceOf (.add rd rs1 rs2) s).result = some (readReg t rd) ∧
    encode (.add rd rs1 rs2) = encodeRRR 0#4 rd rs1 rs2) ∧
  ∀ w : Word, opcode w = 0#4 →
    decode w = .add (Reg.ofIndex (destination w)) (Reg.ofIndex (sourceReg1 w)) (Reg.ofIndex (sourceReg2 w))

/-- R76: decrement writes (a - imm) mod 65536 to its destination, returns it for the trace, and changes nothing else; a
Word of opcode 1 is decrement of its two register fields and its sign-extended five low bits. -/
def Obligations.DecrementWritesTheWrappedDifference : Prop :=
  (∀ (rd rs1 : Reg) (imm : Word) (s : State), ∃ t, exec (.decrement rd rs1 imm) s = .next t ∧
    ((readReg t rd).toNat : Int) = (((readReg s rs1).toNat : Int) - (imm.toNat : Int)) % 65536 ∧
    OnlyWritesReg rd s t ∧ (traceOf (.decrement rd rs1 imm) s).result = some (readReg t rd) ∧
    encode (.decrement rd rs1 imm) = encodeRRI 1#4 rd rs1 imm) ∧
  ∀ w : Word, opcode w = 1#4 →
    decode w = .decrement (Reg.ofIndex (destination w)) (Reg.ofIndex (sourceReg1 w)) (sext 5 (imm5 w))

/-- R77: and writes, bit for bit, the AND of its two source registers, returns it for the trace, and changes nothing
else; a Word of opcode 2 is and of its three register fields. -/
def Obligations.AndWritesTheBitwiseAnd : Prop :=
  (∀ (rd rs1 rs2 : Reg) (s : State), ∃ t, exec (.and rd rs1 rs2) s = .next t ∧
    (∀ k : Nat, k < 16 →
      (readReg t rd).getLsbD k = ((readReg s rs1).getLsbD k && (readReg s rs2).getLsbD k)) ∧
    OnlyWritesReg rd s t ∧ (traceOf (.and rd rs1 rs2) s).result = some (readReg t rd) ∧
    encode (.and rd rs1 rs2) = encodeRRR 2#4 rd rs1 rs2) ∧
  ∀ w : Word, opcode w = 2#4 →
    decode w = .and (Reg.ofIndex (destination w)) (Reg.ofIndex (sourceReg1 w)) (Reg.ofIndex (sourceReg2 w))

/-- R78: xor writes, bit for bit, the XOR of its two source registers, returns it for the trace, and changes nothing
else; a Word of opcode 3 is xor of its three register fields. -/
def Obligations.XorWritesTheBitwiseXor : Prop :=
  (∀ (rd rs1 rs2 : Reg) (s : State), ∃ t, exec (.xor rd rs1 rs2) s = .next t ∧
    (∀ k : Nat, k < 16 →
      (readReg t rd).getLsbD k = ((readReg s rs1).getLsbD k ^^ (readReg s rs2).getLsbD k)) ∧
    OnlyWritesReg rd s t ∧ (traceOf (.xor rd rs1 rs2) s).result = some (readReg t rd) ∧
    encode (.xor rd rs1 rs2) = encodeRRR 3#4 rd rs1 rs2) ∧
  ∀ w : Word, opcode w = 3#4 →
    decode w = .xor (Reg.ofIndex (destination w)) (Reg.ofIndex (sourceReg1 w)) (Reg.ofIndex (sourceReg2 w))

/-- R80: load writes exactly the sign-extended immediate, whatever the registers held, returns it for the trace, and
changes nothing else, memory not being read; a Word of opcode 4 is load of its destination field and its sign-extended
five low bits. -/
def Obligations.LoadWritesTheImmediate : Prop :=
  (∀ (rd : Reg) (imm : Word) (s : State), ∃ t, exec (.load rd imm) s = .next t ∧
    readReg t rd = imm ∧ OnlyWritesReg rd s t ∧ (traceOf (.load rd imm) s).result = some imm ∧
    encode (.load rd imm) = encodeRI 4#4 rd imm) ∧
  ∀ w : Word, opcode w = 4#4 → decode w = .load (Reg.ofIndex (destination w)) (sext 5 (imm5 w))

/-- R82: halt clears RUN and leaves every register, PC and memory as they are; its trace result is 5; every Word
0x5000..0x5FFF is halt and its canonical encoding is 0x5000; the step that runs one takes RUN from true to false and
has advanced PC. -/
def Obligations.HaltClearsOnlyTheRunningFlag : Prop :=
  (∀ s : State, ∃ t, exec .halt s = .next t ∧ t.run = false ∧ (∀ r : Reg, readReg t r = readReg s r) ∧
    t.pc = s.pc ∧ SameMemory s t ∧ (traceOf .halt s).result = some 5#16) ∧
  (∀ w : Word, opcode w = 5#4 → decode w = .halt) ∧ encode .halt = 0x5000#16 ∧
  ∀ s : State, Running s → opcode (fetch s) = 5#4 → ∃ t, step s = .next t ∧ t.run = false ∧ t.pc = s.pc + 1#16 ∧
    (∀ r : Reg, readReg t r = readReg s r) ∧ SameMemory s t

/-- R84: each of the ten undefined opcodes writes no state at all and raises the diagnostic; every Word of opcode 6..15
is one of them; the step that fetches one advances PC by one and changes nothing else. That the trace record then has no
result is not R84's: it is the spec's decision D8, in R85 (log entry 7). -/
def Obligations.UndefinedOpcodesAreNoOps : Prop :=
  (∀ i ∈ undefinedInstrs, ∀ s : State, exec i s = .next s ∧
    traceOf i s = { opcode := i.opcode, result := none, undef := true }) ∧
  (∀ w : Word, 6 ≤ (opcode w).toNat → decode w ∈ undefinedInstrs) ∧
  ∀ s : State, Running s → 6 ≤ (opcode (fetch s)).toNat → step s = .next (advancePc s)

/-- R79: the result of add and of decrement is the same whether operands are read as unsigned or as signed. -/
def Obligations.ArithmeticIsSignAgnostic : Prop :=
  ∀ (rd rs1 rs2 : Reg) (imm : Word) (s : State),
    (∃ t, exec (.add rd rs1 rs2) s = .next t ∧
      (signed (readReg t rd) - (signed (readReg s rs1) + signed (readReg s rs2))) % 65536 = 0) ∧
    ∃ t, exec (.decrement rd rs1 imm) s = .next t ∧
      (signed (readReg t rd) - (signed (readReg s rs1) - signed imm)) % 65536 = 0

/-- R79's identities: decrement by k and then by -k restores the source; add is commutative; xor of a register with
itself is 0; and of a register with itself copies it. -/
def Obligations.ArithmeticIdentities : Prop :=
  ∀ (rd rs rs2 : Reg) (k : Word) (s : State),
    (∃ t u, exec (.decrement rd rs k) s = .next t ∧ exec (.decrement rd rd (-k)) t = .next u ∧
      readReg u rd = readReg s rs) ∧
    (∃ t, exec (.add rd rs rs2) s = .next t ∧ exec (.add rd rs2 rs) s = .next t) ∧
    (∃ t, exec (.xor rd rs rs) s = .next t ∧ readReg t rd = 0x0000#16) ∧
    ∃ t, exec (.and rd rs rs) s = .next t ∧ readReg t rd = readReg s rs

/-- R22, R74: no instruction reads PC, RUN or memory: where the registers agree, the registers after agree, and so do
the trace records. -/
def Obligations.InstructionsReadOnlyRegisters : Prop :=
  ∀ (i : Instr) (s u : State), (∀ r : Reg, readReg s r = readReg u r) →
    (∃ t v, exec i s = .next t ∧ exec i u = .next v ∧ ∀ r : Reg, readReg t r = readReg v r) ∧ traceOf i s = traceOf i u

/-! ## The step -/

/-- R87: while RUN is true, a step is the handler of the decoded Word at PC, run where PC alone has been incremented,
and its trace record is that handler's. -/
def Obligations.StepRunsTheDecodedInstruction : Prop :=
  ∀ (s : State) (i : Instr), Running s → decode (memRead s s.pc) = i →
    step s = exec i (advancePc s) ∧ stepTrace s = some (traceOf i (advancePc s)) ∧
    (advancePc s).pc.toNat = (s.pc.toNat + 1) % 65536 ∧ (advancePc s).regs = s.regs ∧
    (advancePc s).run = s.run ∧ (advancePc s).mem = s.mem

/-- R21: each step sets PC to PC + 1 mod 65536, after the fetch and before the dispatch, and no handler writes PC. -/
def Obligations.EveryStepAdvancesPcByOne : Prop :=
  (∀ s : State, Running s → step s = exec (decode (memRead s s.pc)) (advancePc s) ∧
    ∃ t, step s = .next t ∧ t.pc.toNat = (s.pc.toNat + 1) % 65536) ∧
  ∀ (i : Instr) (s : State), ∃ t, exec i s = .next t ∧ t.pc = s.pc

/-- R18, R87: a step writes PC, and one register for opcodes 0..4, or RUN for opcode 5, or nothing more; memory never. -/
def Obligations.StepWritesPcAndAtMostOneOther : Prop :=
  ∀ s : State, Running s → ∃ t, step s = .next t ∧ t.pc = s.pc + 1#16 ∧ SameMemory s t ∧
    ((opcode (fetch s)).toNat ≤ 4 →
      t.run = true ∧ ∀ r : Reg, r ≠ Reg.ofIndex (destination (fetch s)) → readReg t r = readReg s r) ∧
    (opcode (fetch s) = 5#4 → t.run = false ∧ ∀ r : Reg, readReg t r = readReg s r) ∧
    (6 ≤ (opcode (fetch s)).toNat → t.run = true ∧ ∀ r : Reg, readReg t r = readReg s r)

/-- R75 to R78, R80 at the level of a fetched Word: what the destination register holds after the step, from the bits
of the Word. -/
def Obligations.FetchedWordDecidesTheResult : Prop :=
  ∀ s : State, Running s → ∃ t, step s = .next t ∧
    (opcode (fetch s) = 0#4 → readReg t (Reg.ofIndex (destination (fetch s))) =
      readReg s (Reg.ofIndex (sourceReg1 (fetch s))) + readReg s (Reg.ofIndex (sourceReg2 (fetch s)))) ∧
    (opcode (fetch s) = 1#4 → readReg t (Reg.ofIndex (destination (fetch s))) =
      readReg s (Reg.ofIndex (sourceReg1 (fetch s))) - sext 5 (imm5 (fetch s))) ∧
    (opcode (fetch s) = 2#4 → readReg t (Reg.ofIndex (destination (fetch s))) =
      readReg s (Reg.ofIndex (sourceReg1 (fetch s))) &&& readReg s (Reg.ofIndex (sourceReg2 (fetch s)))) ∧
    (opcode (fetch s) = 3#4 → readReg t (Reg.ofIndex (destination (fetch s))) =
      readReg s (Reg.ofIndex (sourceReg1 (fetch s))) ^^^ readReg s (Reg.ofIndex (sourceReg2 (fetch s)))) ∧
    (opcode (fetch s) = 4#4 → readReg t (Reg.ofIndex (destination (fetch s))) = sext 5 (imm5 (fetch s)))

/-- R24, R25: the one step that clears RUN is a halt's. -/
def Obligations.OnlyHaltStopsTheLoop : Prop :=
  ∀ s : State, Running s → ∃ t, step s = .next t ∧ (Halted t ↔ opcode (fetch s) = 5#4)

/-- R88: with RUN false there is no step: no trace record, no state changed, whatever `go` is; with `go` not asserted
there is none either. That `step` answers such a state with itself is the model's reading (log entry 2). -/
def Obligations.NoStepWhenHaltedOrDisabled : Prop :=
  ∀ (s : State) (go : Bool), (Halted s → step s = .next s ∧ stepWhen go s = .next s ∧ stepTrace s = none) ∧
    stepWhen false s = .next s

/-- R113: nothing is ever raised: every handler, every step and every transaction, from any state, answers a next state.
(That the step of a halted state answers that state is log entry 2; that `Fault` is empty is log entry 4.) -/
def Obligations.NothingFaultsOrIsRefused : Prop :=
  (∀ (i : Instr) (s : State), ∃ t, exec i s = .next t) ∧ (∀ s : State, ∃ t, step s = .next t) ∧
  ∀ (tx : Transaction) (x : HostSystem), ∃ y, transact tx x = .next y

/-- R97: the record of a step: the opcode; the Word written to the destination for opcodes 0..4, the value 5 for halt,
no value for opcodes 6..15; `undef` exactly for opcodes 6..15. -/
def Obligations.TraceRecordMatchesTheStep : Prop :=
  ∀ s : State, Running s → ∃ t rec, step s = .next t ∧ stepTrace s = some rec ∧ rec.opcode = opcode (fetch s) ∧
    (rec.undef = true ↔ 6 ≤ (opcode (fetch s)).toNat) ∧
    ((opcode (fetch s)).toNat ≤ 4 → rec.result = some (readReg t (Reg.ofIndex (destination (fetch s))))) ∧
    (opcode (fetch s) = 5#4 → rec.result = some 5#16) ∧
    (6 ≤ (opcode (fetch s)).toNat → rec.result = none)

/-! ## Memory -/

/-- R36: memory is constant over any number of steps from any state. -/
def Obligations.StepsNeverWriteMemory : Prop :=
  ∀ (k : Nat) (s : State), ∃ t, runSteps k s = .next t ∧ t.mem = s.mem

/-- The invariant of the memory's representation (log entry 1): every step keeps it, and so does every transaction of
the host, LOAD_WORD at any address among them. -/
def Obligations.EveryTransitionKeepsMemoryCanonical : Prop :=
  (∀ s t : State, MemoryCanonical s → step s = .next t → MemoryCanonical t) ∧
  ∀ (tx : Transaction) (x y : HostSystem), MemoryCanonical x.core → transact tx x = .next y → MemoryCanonical y.core

/-- R34: MemWrite sets MEM[a] to v and changes nothing else, at every address. (The premise is the invariant of log
entry 1's representation.) -/
def Obligations.MemWriteSetsOneCell : Prop :=
  ∀ (s : State) (a v : Word), MemoryCanonical s →
    (∀ b : Word, memRead (memWrite s a v) b = if b = a then v else memRead s b) ∧
    (memWrite s a v).regs = s.regs ∧ (memWrite s a v).pc = s.pc ∧ (memWrite s a v).run = s.run

/-- R27, R32, log entry 1: the canonical list is the array of 65536 Words and nothing more: two that read alike at every
word address are equal. -/
def Obligations.CanonicalMemoriesThatReadAlikeAreEqual : Prop :=
  ∀ s t : State, MemoryCanonical s → MemoryCanonical t → SameMemory s t → s.mem = t.mem

/-- The model's own `withFetchWord` (log entry 5): the next step fetches and runs exactly the Word placed. -/
def Obligations.PlacedWordIsTheNextInstruction : Prop :=
  ∀ (s : State) (w : Word), MemoryCanonical s →
    decodeTableWord 16 w.toNat = some (decode w) ∧
    step (s.withFetchWord 16 w.toNat) = exec (decode w) (advancePc (s.withFetchWord 16 w.toNat))

/-! ## Whole runs -/

/-- R91: from a running state whose `h`-th fetch is the first of a halt Word, the machine is Running after each of the
first `h` steps with PC advanced once a step, and Halted after exactly `h + 1` steps, one past the halt Word. -/
def Obligations.RunEndsAtTheFirstHaltWord : Prop :=
  ∀ (s : State) (h : Nat), Running s → HaltsAt s (fetchAddr s h) → (∀ j : Nat, j < h → ¬ HaltsAt s (fetchAddr s j)) →
    (∀ k : Nat, k ≤ h → ∃ t, runSteps k s = .next t ∧ Running t ∧ t.pc = fetchAddr s k) ∧
    ∃ t, runSteps (h + 1) s = .next t ∧ Halted t ∧ t.pc = fetchAddr s (h + 1) ∧ SameMemory s t

/-- R93: where no cell of memory holds a halt Word, the run never halts, and PC goes round the address space. -/
def Obligations.WithoutHaltWordTheRunNeverEnds : Prop :=
  ∀ s : State, Running s → (∀ a : Word, ¬ HaltsAt s a) →
    ∀ k : Nat, ∃ t, runSteps k s = .next t ∧ Running t ∧ t.pc = fetchAddr s k

/-- R89: the loop under fuel stops where `fuel` steps stop, reports Halted exactly when RUN is false there, and "not yet
halted" otherwise. (`runSteps` past the halt idles, log entry 2.) -/
def Obligations.RunLoopReportsHaltedExactly : Prop :=
  ∀ (fuel : Nat) (s : State), ∃ t, runSteps fuel s = .next t ∧
    runLoop fuel s = .next (if t.run then .notYetHalted t else .halted t)

/-! ## The host -/

/-- R98, R100, R101: a transaction that is not enabled changes nothing; LOAD_WORD while `go` is asserted is one. -/
def Obligations.DisabledTransactionsChangeNothing : Prop :=
  (∀ (tx : Transaction) (x : HostSystem), enabled tx x = false → transact tx x = .next x) ∧
  ∀ (x : HostSystem) (a v : Word), x.go = true → enabled (.loadWord a v) x = false

/-- R83: only RESET leaves Halted: every other transaction keeps RUN false, the registers and PC. -/
def Obligations.OnlyResetLeavesHalted : Prop :=
  ∀ (tx : Transaction) (x : HostSystem), Halted x.core → tx ≠ .reset →
    ∃ y, transact tx x = .next y ∧ Halted y.core ∧ y.core.regs = x.core.regs ∧ y.core.pc = x.core.pc

/-- R99, R100, R118: at one instant RESET wins over a step and a load, and a step over a load. -/
def Obligations.ResetWinsOverStepAndLoad : Prop :=
  ∀ (s : State) (ld : Option (Word × Word)) (go : Bool),
    instant { rst := true, go := go, load := ld } s = .next State.reset ∧
    instant { rst := false, go := true, load := ld } s = step s ∧
    (∀ a v : Word, instant { rst := false, go := false, load := some (a, v) } s = .next (memWrite s a v)) ∧
    instant { rst := false, go := false, load := none } s = .next s

/-- R102, R103, R107: the launch state of an image of fewer than 65536 Words, from whatever state: the image from
address 0, the canonical halt word after it unless the image ends in one, zero elsewhere; registers and PC 0, RUN true. -/
def Obligations.LaunchStateHoldsTheImage : Prop :=
  ∀ (img : List Word) (s : State), img.length < 65536 → ∃ u, launch (.words img) s = .launched u ∧
    (∀ a : Word, memRead u a =
      if a.toNat < img.length then img.getD a.toNat 0x0000#16
      else if a.toNat = img.length ∧ img.getLast? ≠ some 0x5000#16 then 0x5000#16
      else 0x0000#16) ∧
    (∀ r : Reg, readReg u r = 0x0000#16) ∧ u.pc = 0x0000#16 ∧ u.run = true ∧ MemoryCanonical u

/-- R105, R106: an image of 65536 Words or more, or one that cannot be read, is reported as a load failure, from
whatever state; the core is as RESET and the partial loading left it: registers and PC 0, RUN true, and every cell the
partial loading did not write 0. The program run ends there, whatever the fuel: `go` is not asserted and no step happens.
What the partial loading wrote is a free value (log entry 14); the canonical memory list is log entry 1's. -/
def Obligations.UnloadableImageIsNeverRun : Prop :=
  ∀ (im : Image) (s : State), (∀ img : List Word, im = .words img → 65536 ≤ img.length) →
    ∃ u, launch im s = .failed u ∧
      (∀ r : Reg, readReg u r = 0x0000#16) ∧ u.pc = 0x0000#16 ∧ u.run = true ∧ MemoryCanonical u ∧
      (∀ a : Word, (∀ p ∈ Config.partialLoad im.read, p.1 ≠ a) → memRead u a = 0x0000#16) ∧
      ∀ fuel : Nat, programRun fuel im { core := s, go := false } = .next ({ core := u, go := false }, .loadFailure)

/-- R106: a file that cannot be read is a load failure whatever was read of it, and so is a readable one of 131072 bytes
or more (R104, R105); any other is launched. -/
def Obligations.FileLoadsExactlyWhenReadableAndSmall : Prop :=
  ∀ (file : ImageFile) (s : State),
    match file with
    | .readable bytes => if 131072 ≤ bytes.length then ∃ u, launchFile file s = .failed u
        else ∃ u, launchFile file s = .launched u
    | .unreadable _ => ∃ u, launchFile file s = .failed u

/-- R104: an image has `floor(length/2)` Words, and its `k`-th is made of file bytes `2k` and `2k + 1` in the order the
Loader's parameter says. -/
def Obligations.ImageWordsComeFromBytePairs : Prop :=
  ∀ (order : ByteOrder) (bytes : List Byte),
    (imageOfBytes order bytes).length = bytes.length / 2 ∧
    ∀ k : Nat, k < bytes.length / 2 →
      ((imageOfBytes order bytes).getD k 0#16).toNat =
        match order with
        | .little => (bytes.getD (2 * k + 1) 0#8).toNat * 256 + (bytes.getD (2 * k) 0#8).toNat
        | .big => (bytes.getD (2 * k) 0#8).toNat * 256 + (bytes.getD (2 * k + 1) 0#8).toNat

/-- R92: every image the Loader accepts halts: from its launch state the run reaches Halted in at most `N + 1` steps, at
a halt Word, with PC one past it. -/
def Obligations.EveryLoadedImageHalts : Prop :=
  ∀ (img : List Word) (s : State), img.length < 65536 → ∃ u, launch (.words img) s = .launched u ∧
    ∃ h t, h ≤ img.length ∧ HaltsAt u (BitVec.ofNat 16 h) ∧ runSteps (h + 1) u = .next t ∧ Halted t ∧
      t.pc = BitVec.ofNat 16 (h + 1)

/-- R111: one program run of an image the Loader accepts, from any core with `go` not asserted: the core steps from the
image's launch state until `run = false`, is observed there, and `go` is deasserted; fuel for `N + 1` steps is always
enough; with less, a run that has not halted is reported so, with `go` still asserted (log entry 18; `runSteps` past the
halt idles, log entry 2). -/
def Obligations.ProgramRunIsLaunchThenSteps : Prop :=
  ∀ (img : List Word) (fuel : Nat) (x : HostSystem), x.go = false → img.length < 65536 →
    ∃ u t, (∀ s : State, launch (.words img) s = .launched u) ∧ runSteps fuel u = .next t ∧
      (img.length + 1 ≤ fuel → Halted t) ∧
      programRun fuel (.words img) x =
        if t.run then .next ({ core := t, go := true }, .notYetHalted)
        else .next ({ core := t, go := false }, .halted (observe t))

/-- R92, R106, R111: from any core with `go` not asserted, the program run of every image ends, readable or not and of
whatever size, in one way, with `go` not asserted: with a load failure exactly for the images R105 and R106 say, and
otherwise halted, with what was observed. (A load failure's core is a free value's, log entry 14.) -/
def Obligations.EveryProgramRunEndsInOneWay : Prop :=
  ∀ (im : Image) (x : HostSystem), x.go = false → ∃ y r, ProgramRunEnds im x y r ∧ y.go = false ∧
    (∀ y' r', ProgramRunEnds im x y' r' → y' = y ∧ r' = r) ∧
    match im with
    | .words img => if 65536 ≤ img.length then r = .loadFailure else Halted y.core ∧ r = .halted (observe y.core)
    | .unreadable _ => r = .loadFailure

/-- R111, R134: images run in turn, each reported as it is when run alone from reset: no run sees anything of an earlier
one, a failed load included. -/
def Obligations.RunsInTurnDoNotInterfere : Prop :=
  ∀ (fuel : Nat) (ims : List Image) (reports : List RunReport) (x : HostSystem), x.go = false →
    List.Forall₂ (fun im r => r ≠ .notYetHalted ∧
      ∃ y, programRun fuel im { core := State.reset, go := false } = .next (y, r)) ims reports →
    ∃ y, programRuns fuel ims x = .next (y, reports) ∧ y.go = false

/-- R108, R109: OBSERVE changes nothing and returns every register, PC and RUN; the signed presentation is the number
from -32768 to 32767 congruent to the register. -/
def Obligations.ObservationIsExactAndSigned : Prop :=
  ∀ x : HostSystem, transact .observe x = .next x ∧
    (observe x.core).regs = x.core.regs ∧ (observe x.core).pc = x.core.pc ∧ (observe x.core).run = x.core.run ∧
    ∀ r : Reg, -32768 ≤ observeSigned x.core r ∧ observeSigned x.core r ≤ 32767 ∧
      observeSigned x.core r % 65536 = ((readReg x.core r).toNat : Int) ∧
      -32768 ≤ observeSignedPc x.core ∧ observeSignedPc x.core ≤ 32767 ∧
      observeSignedPc x.core % 65536 = (x.core.pc.toNat : Int)
end

