-- ==== Sys2Proof/Laws/State.lean ====
section
/-! SUPPORT. One lemma per field per update of State, so that no later proof unfolds a record update. -/

namespace Sys2Proof.Machine

@[simp] theorem writeReg_pc (s : State) (r : Reg) (v : Word) : (writeReg s r v).pc = s.pc := rfl
@[simp] theorem writeReg_run (s : State) (r : Reg) (v : Word) : (writeReg s r v).run = s.run := rfl
@[simp] theorem writeReg_mem (s : State) (r : Reg) (v : Word) : (writeReg s r v).mem = s.mem := rfl
@[simp] theorem writeReg_regs (s : State) (r : Reg) (v : Word) : (writeReg s r v).regs = s.regs.set r v := rfl

@[simp] theorem clearRun_regs (s : State) : (clearRun s).regs = s.regs := rfl
@[simp] theorem clearRun_pc (s : State) : (clearRun s).pc = s.pc := rfl
@[simp] theorem clearRun_run (s : State) : (clearRun s).run = false := rfl
@[simp] theorem clearRun_mem (s : State) : (clearRun s).mem = s.mem := rfl

@[simp] theorem advancePc_regs (s : State) : (advancePc s).regs = s.regs := rfl
@[simp] theorem advancePc_pc (s : State) : (advancePc s).pc = s.pc + 1#16 := rfl
@[simp] theorem advancePc_run (s : State) : (advancePc s).run = s.run := rfl
@[simp] theorem advancePc_mem (s : State) : (advancePc s).mem = s.mem := rfl

@[simp] theorem memWrite_regs (s : State) (a v : Word) : (memWrite s a v).regs = s.regs := rfl
@[simp] theorem memWrite_pc (s : State) (a v : Word) : (memWrite s a v).pc = s.pc := rfl
@[simp] theorem memWrite_run (s : State) (a v : Word) : (memWrite s a v).run = s.run := rfl
@[simp] theorem memWrite_mem (s : State) (a v : Word) : (memWrite s a v).mem = Memory.writeWord s.mem a v := rfl

@[simp] theorem placeForFetch_regs (s : State) (w : Word) : (placeForFetch s w).regs = s.regs := rfl
@[simp] theorem placeForFetch_pc (s : State) (w : Word) : (placeForFetch s w).pc = s.pc := rfl
@[simp] theorem placeForFetch_run (s : State) (w : Word) : (placeForFetch s w).run = true := rfl
@[simp] theorem placeForFetch_mem (s : State) (w : Word) :
    (placeForFetch s w).mem = Memory.writeWord s.mem s.pc w := rfl

@[simp] theorem reset_pc : State.reset.pc = 0#16 := rfl
@[simp] theorem reset_run : State.reset.run = true := rfl
@[simp] theorem reset_mem : State.reset.mem = [] := rfl

/-- A register read sees the register file alone. -/
theorem readReg_of_regs {s t : State} (h : t.regs = s.regs) (r : Reg) : readReg t r = readReg s r := by
  cases r <;> simp only [readReg, h]

@[simp] theorem readReg_clearRun (s : State) (r : Reg) : readReg (clearRun s) r = readReg s r :=
  readReg_of_regs rfl r
@[simp] theorem readReg_advancePc (s : State) (r : Reg) : readReg (advancePc s) r = readReg s r :=
  readReg_of_regs rfl r
@[simp] theorem readReg_memWrite (s : State) (a v : Word) (r : Reg) : readReg (memWrite s a v) r = readReg s r :=
  readReg_of_regs rfl r

/-- `x[r] <- v` gives `v` in `r` and leaves the other seven as they were. -/
theorem readReg_writeReg (s : State) (r q : Reg) (v : Word) :
    readReg (writeReg s r v) q = if q = r then v else readReg s q := by
  cases r <;> cases q <;> rfl

@[simp] theorem readReg_writeReg_same (s : State) (r : Reg) (v : Word) : readReg (writeReg s r v) r = v := by
  simp [readReg_writeReg]

theorem readReg_writeReg_other (s : State) {r q : Reg} (v : Word) (h : q ≠ r) :
    readReg (writeReg s r v) q = readReg s q := by
  simp [readReg_writeReg, h]

/-- A memory read sees the memory alone. -/
theorem memRead_of_mem {s t : State} (h : t.mem = s.mem) (a : Word) : memRead t a = memRead s a := by
  simp only [memRead, h]

@[simp] theorem memRead_writeReg (s : State) (r : Reg) (v a : Word) : memRead (writeReg s r v) a = memRead s a := rfl
@[simp] theorem memRead_clearRun (s : State) (a : Word) : memRead (clearRun s) a = memRead s a := rfl
@[simp] theorem memRead_advancePc (s : State) (a : Word) : memRead (advancePc s) a = memRead s a := rfl

/-- Two register files that read alike are one. -/
theorem regs_eq_of_readReg {s t : State} (h : ∀ r, readReg s r = readReg t r) : s.regs = t.regs := by
  obtain ⟨⟨_, _, _, _, _, _, _, _⟩, _, _, _⟩ := s
  obtain ⟨⟨_, _, _, _, _, _, _, _⟩, _, _, _⟩ := t
  have h0 := h .r0
  have h1 := h .r1
  have h2 := h .r2
  have h3 := h .r3
  have h4 := h .r4
  have h5 := h .r5
  have h6 := h .r6
  have h7 := h .r7
  simp_all [readReg]

end Sys2Proof.Machine
end

