-- ==== Sys2Proof/Laws/Exec.lean ====
section
/-! SUPPORT. What the shared operations of the handlers can do, what the dispatcher can do, what a step can do: each
said once. -/

namespace Sys2Proof.Machine

theorem writeResult_eq (rd : Reg) (v : Word) (s : State) : writeResult rd v s = .next (writeReg s rd v) := rfl

theorem undefinedNoOp_eq (s : State) : undefinedNoOp s = .next s := rfl

/-- The dispatcher writes one register, or clears RUN for halt, or writes nothing. -/
theorem exec_cases (i : Instr) (s : State) :
    (∃ rd v, i.opcode.toNat ≤ 4 ∧ exec i s = .next (writeReg s rd v)) ∨
    (i = .halt ∧ exec i s = .next (clearRun s)) ∨
    (6 ≤ i.opcode.toNat ∧ exec i s = .next s) := by
  cases i with
  | add rd rs1 rs2 => exact .inl ⟨rd, _, by simp [Instr.opcode], rfl⟩
  | decrement rd rs1 imm => exact .inl ⟨rd, _, by simp [Instr.opcode], rfl⟩
  | and rd rs1 rs2 => exact .inl ⟨rd, _, by simp [Instr.opcode], rfl⟩
  | xor rd rs1 rs2 => exact .inl ⟨rd, _, by simp [Instr.opcode], rfl⟩
  | load rd imm => exact .inl ⟨rd, _, by simp [Instr.opcode], rfl⟩
  | halt => exact .inr (.inl ⟨rfl, rfl⟩)
  | undefined6 => exact .inr (.inr ⟨by simp [Instr.opcode], rfl⟩)
  | undefined7 => exact .inr (.inr ⟨by simp [Instr.opcode], rfl⟩)
  | undefined8 => exact .inr (.inr ⟨by simp [Instr.opcode], rfl⟩)
  | undefined9 => exact .inr (.inr ⟨by simp [Instr.opcode], rfl⟩)
  | undefined10 => exact .inr (.inr ⟨by simp [Instr.opcode], rfl⟩)
  | undefined11 => exact .inr (.inr ⟨by simp [Instr.opcode], rfl⟩)
  | undefined12 => exact .inr (.inr ⟨by simp [Instr.opcode], rfl⟩)
  | undefined13 => exact .inr (.inr ⟨by simp [Instr.opcode], rfl⟩)
  | undefined14 => exact .inr (.inr ⟨by simp [Instr.opcode], rfl⟩)
  | undefined15 => exact .inr (.inr ⟨by simp [Instr.opcode], rfl⟩)

theorem step_of_running {s : State} (h : s.run = true) : step s = exec (fetchInstr s) (advancePc s) := by
  simp [step, isRunning, h]

theorem step_of_halted {s : State} (h : s.run = false) : step s = .next s := by
  simp [step, isRunning, whenHalted, h]

end Sys2Proof.Machine
end

