-- ==== Sys2Proof/Laws/Memory.lean ====
section
/-! SUPPORT. The memory list: its canonical form in usable terms, what a read gives after a write, and that every
memory operation keeps the form. -/

namespace Sys2Proof.Machine

/-- The canonical form as three plain facts. -/
theorem Memory.wf_iff (m : List Host.Cell) :
    Memory.wf m = true ↔
      (m.Pairwise fun c d => c.1 < d.1) ∧ ∀ c ∈ m, c.2 ≠ Memory.unlisted ∧ c.1 < Memory.keyBound := by
  simp [Memory.wf]

theorem Memory.wf_nil : Memory.wf [] = true := by decide

theorem Memory.wf_cons (c : Host.Cell) (m : List Host.Cell) :
    Memory.wf (c :: m) = true ↔
      (∀ d ∈ m, c.1 < d.1) ∧ c.2 ≠ Memory.unlisted ∧ c.1 < Memory.keyBound ∧ Memory.wf m = true := by
  simp only [Memory.wf_iff, List.pairwise_cons, List.forall_mem_cons]
  tauto

/-- A key no entry has reads as unlisted. -/
theorem Memory.readByte_of_not_listed {m : List Host.Cell} {k : Nat} (h : ∀ c ∈ m, c.1 ≠ k) :
    Memory.readByte m k = Memory.unlisted := by
  induction m with
  | nil => rfl
  | cons c m ih =>
    rw [List.forall_mem_cons] at h
    simp [Memory.readByte, h.1, ih h.2]

/-- Reading past an entry of the key, or none, written in front. -/
theorem Memory.readByte_entry_append (m : List Host.Cell) (k j : Nat) (v : Byte)
    (h : ∀ c ∈ m, k < c.1) :
    Memory.readByte (Memory.entry k v ++ m) j = if j = k then v else Memory.readByte m j := by
  have hk : Memory.readByte m k = Memory.unlisted :=
    Memory.readByte_of_not_listed fun c hc => (Nat.ne_of_lt (h c hc)).symm
  by_cases hv : v = Memory.unlisted
  · by_cases hj : j = k <;> simp [Memory.entry, hv, hj, hk]
  · by_cases hj : j = k
    · simp [Memory.entry, hv, hj, Memory.readByte]
    · simp [Memory.entry, hv, hj, Memory.readByte, Ne.symm hj]

/-- A read of one half Word after a write of one. -/
theorem Memory.readByte_writeByte {m : List Host.Cell} (h : Memory.wf m = true) (k j : Nat) (v : Byte) :
    Memory.readByte (Memory.writeByte m k v) j = if j = k then v else Memory.readByte m j := by
  induction m with
  | nil => simpa [Memory.writeByte] using Memory.readByte_entry_append [] k j v (by simp)
  | cons c m ih =>
    obtain ⟨hlt, -, -, hm⟩ := (Memory.wf_cons c m).1 h
    obtain ⟨i, b⟩ := c
    simp only [Memory.writeByte]
    split
    · rename_i hk
      exact Memory.readByte_entry_append _ k j v
        (List.forall_mem_cons.2 ⟨hk, fun d hd => Nat.lt_trans hk (hlt d hd)⟩)
    · split
      · rename_i _ hi
        subst hi
        rw [Memory.readByte_entry_append m i j v hlt]
        by_cases hj : j = i
        · simp [hj]
        · simp [hj, Memory.readByte, Ne.symm hj]
      · rename_i _ hi
        simp only [Memory.readByte, ih hm]
        by_cases hij : i = j
        · subst hij
          simp [hi]
        · simp [hij]

/-- The keys of a written list are the written key or were there before. -/
theorem Memory.mem_writeByte {m : List Host.Cell} {k : Nat} {v : Byte} {c : Host.Cell}
    (h : c ∈ Memory.writeByte m k v) : (c = (k, v) ∧ v ≠ Memory.unlisted) ∨ c ∈ m := by
  have entry : ∀ {d : Host.Cell}, d ∈ Memory.entry k v → d = (k, v) ∧ v ≠ Memory.unlisted := by
    intro d hd
    by_cases hv : v = Memory.unlisted <;> simp_all [Memory.entry]
  induction m with
  | nil => exact .inl (entry h)
  | cons d m ih =>
    obtain ⟨j, b⟩ := d
    simp only [Memory.writeByte] at h
    split at h
    · exact (List.mem_append.1 h).imp entry id
    · split at h
      · exact (List.mem_append.1 h).imp entry (List.mem_cons_of_mem _)
      · rcases List.mem_cons.1 h with h | h
        · exact .inr (h ▸ List.mem_cons_self)
        · exact (ih h).imp id (List.mem_cons_of_mem _)

/-- A smaller key's entry, or none, in front of a canonical list. -/
theorem Memory.wf_entry_append {m : List Host.Cell} {k : Nat} (v : Byte) (hm : Memory.wf m = true)
    (hk : k < Memory.keyBound) (h : ∀ c ∈ m, k < c.1) : Memory.wf (Memory.entry k v ++ m) = true := by
  by_cases hv : v = Memory.unlisted
  · simpa [Memory.entry, hv] using hm
  · simpa [Memory.entry, hv] using (Memory.wf_cons (k, v) m).2 ⟨h, hv, hk, hm⟩

/-- Writing a half Word inside the array keeps the canonical form. -/
theorem Memory.wf_writeByte {m : List Host.Cell} {k : Nat} (v : Byte) (h : Memory.wf m = true)
    (hk : k < Memory.keyBound) : Memory.wf (Memory.writeByte m k v) = true := by
  induction m with
  | nil => simpa [Memory.writeByte] using Memory.wf_entry_append v h hk (by simp)
  | cons c m ih =>
    obtain ⟨hlt, hb, hc, hm⟩ := (Memory.wf_cons c m).1 h
    obtain ⟨j, b⟩ := c
    simp only [Memory.writeByte]
    split
    · rename_i hkj
      exact Memory.wf_entry_append v h hk
        (List.forall_mem_cons.2 ⟨hkj, fun d hd => Nat.lt_trans hkj (hlt d hd)⟩)
    · split
      · rename_i _ hjk
        subst hjk
        exact Memory.wf_entry_append v hm hk hlt
      · rename_i hkj hjk
        refine (Memory.wf_cons _ _).2 ⟨fun d hd => ?_, hb, hc, ih hm⟩
        rcases Memory.mem_writeByte hd with ⟨rfl, -⟩ | hd
        · exact Nat.lt_of_le_of_ne (Nat.le_of_not_lt hkj) hjk
        · exact hlt d hd

/-- Writing a Word keeps the canonical form, at every address. -/
theorem Memory.wf_writeWord {m : List Host.Cell} (a v : Word) (h : Memory.wf m = true) :
    Memory.wf (Memory.writeWord m a v) = true := by
  have ha : a.toNat < 65536 := a.isLt
  apply Memory.wf_writeByte
  · apply Memory.wf_writeByte _ h
    simp only [Memory.keyBound, Config.memWords]
    omega
  · simp only [Memory.keyBound, Config.memWords]
    omega

/-- The memory after reset is canonical. -/
theorem Memory.wf_reset : Memory.wf State.reset.mem = true := Memory.wf_nil

end Sys2Proof.Machine
end

