-- ==== Sys2Proof/Laws/Host.lean ====
section
/-! SUPPORT. The host's shared operations: chaining, what a list of `LOAD_WORD`s leaves alone, and where a load or a
program run starts. -/

namespace Sys2Proof.Machine

@[simp] theorem andThen_next {α β : Type} (a : α) (f : α → Host.Outcome β Fault Refusal) :
    andThen (.next a) f = f a := rfl

@[simp] theorem hostReset_pc (s : State) : (hostReset s).pc = 0#16 := rfl
@[simp] theorem hostReset_run (s : State) : (hostReset s).run = true := rfl
@[simp] theorem hostReset_mem (s : State) : (hostReset s).mem = [] := rfl

/-- RESET leaves the reset state, whatever came before. -/
theorem hostReset_eq (s : State) : hostReset s = State.reset := rfl

/-- `LOAD_WORD`s touch memory alone. -/
theorem applyLoads_regs (l : List (Word × Word)) (s : State) : (applyLoads l s).regs = s.regs := by
  induction l generalizing s with
  | nil => rfl
  | cons p l ih => exact ih _

theorem applyLoads_pc (l : List (Word × Word)) (s : State) : (applyLoads l s).pc = s.pc := by
  induction l generalizing s with
  | nil => rfl
  | cons p l ih => exact ih _

theorem applyLoads_run (l : List (Word × Word)) (s : State) : (applyLoads l s).run = s.run := by
  induction l generalizing s with
  | nil => rfl
  | cons p l ih => exact ih _

/-- `LOAD_WORD`s keep the canonical form. -/
theorem applyLoads_wf (l : List (Word × Word)) {s : State} (h : Memory.wf s.mem = true) :
    Memory.wf (applyLoads l s).mem = true := by
  induction l generalizing s with
  | nil => exact h
  | cons p l ih => exact ih (Memory.wf_writeWord p.1 p.2 h)

/-- One list of `LOAD_WORD`s after another. -/
theorem applyLoads_append (l m : List (Word × Word)) (s : State) :
    applyLoads (l ++ m) s = applyLoads m (applyLoads l s) := by
  induction l generalizing s with
  | nil => rfl
  | cons p l ih => exact ih _

/-- Transactions one list after another. -/
theorem transactAll_append (l m : List Transaction) (x : HostSystem) :
    transactAll (l ++ m) x = andThen (transactAll l x) (transactAll m) := by
  induction l generalizing x with
  | nil => rfl
  | cons t l ih =>
    simp only [List.cons_append, transactAll]
    cases transact t x with
    | next y => exact ih y
    | fault r => rfl
    | refused r => rfl

/-- As transactions with `go` not asserted, `LOAD_WORD`s do what `applyLoads` does. -/
theorem transactAll_loads (l : List (Word × Word)) (s : State) :
    transactAll (l.map fun p => .loadWord p.1 p.2) { core := s, go := false } =
      .next { core := applyLoads l s, go := false } := by
  induction l generalizing s with
  | nil => rfl
  | cons p l ih => exact ih _

/-- R105 as a comparison of numbers. -/
@[simp] theorem loadFails_words (img : List Word) : loadFails (.words img) = true ↔ 65536 ≤ img.length :=
  decide_eq_true_iff

@[simp] theorem loadFails_unreadable (got : List Word) : loadFails (.unreadable got) = true := rfl

/-- The one core a load leaves, launched or failed, whatever state it began in. -/
theorem launch_eq (im : Image) (s : State) :
    launch im s = if loadFails im then .failed (applyLoads (loaderWrites im) State.reset)
      else .launched (applyLoads (loaderWrites im) State.reset) := rfl

/-- Steps 1 and 2 of R111 as transactions leave that core. -/
theorem transactAll_loadTransactions (im : Image) (s : State) :
    transactAll (loadTransactions im) { core := s, go := false } =
      .next { core := applyLoads (loaderWrites im) State.reset, go := false } :=
  transactAll_loads _ _

/-- What a program run does after its load: stop, or assert `go` and step to the end. -/
theorem programRun_eq (fuel : Nat) (im : Image) (s : State) :
    programRun fuel im { core := s, go := false } =
      if loadFails im then .next ({ core := applyLoads (loaderWrites im) State.reset, go := false }, .loadFailure)
      else runToEnd fuel { core := applyLoads (loaderWrites im) State.reset, go := true } := by
  rw [programRun, transactAll_loadTransactions]
  rfl

end Sys2Proof.Machine
end

