-- ==== Sys2Proof/Laws/PerInstr.lean ====
section
/-! SUPPORT. Statements made per instruction. Family OpcodeField: the canonical encoding of an instruction holds the
opcode of its row in bits 15..12 (30_encoding.md R54, R60). -/

namespace Sys2Proof.Laws

/-- Bits 15..12 of a canonical encoding are the opcode, whatever the operands. -/
def OpcodeField.Statement (i : Instr) : Prop := opcode (encode i) = i.opcode

/-- The opcode field of a disjunction is the disjunction of the fields. -/
theorem opcode_or (x y : Word) : opcode (x ||| y) = opcode x ||| opcode y := by
  simp [opcode, BitVec.extractLsb'_or]

theorem opcode_encodeN (op : BitVec 4) : opcode (encodeN op) = op := by
  revert op; decide

theorem opcode_index_shift_nine (r : Reg) : opcode (r.index.setWidth 16 <<< 9) = 0#4 := by
  cases r <;> rfl

theorem opcode_index_shift_six (r : Reg) : opcode (r.index.setWidth 16 <<< 6) = 0#4 := by
  cases r <;> rfl

theorem opcode_index (r : Reg) : opcode (r.index.setWidth 16) = 0#4 := by
  cases r <;> rfl

theorem opcode_low_five (imm : Word) : opcode (imm &&& 0x1F#16) = 0#4 := by
  simp [opcode, BitVec.extractLsb'_and]

theorem opcode_encodeRRR (op : BitVec 4) (rd rs1 rs2 : Reg) : opcode (encodeRRR op rd rs1 rs2) = op := by
  have h := opcode_encodeN op
  simp only [encodeN] at h
  simp only [encodeRRR, opcode_or, h, opcode_index_shift_nine, opcode_index_shift_six, opcode_index, BitVec.or_zero]

theorem opcode_encodeRRI (op : BitVec 4) (rd rs1 : Reg) (imm : Word) : opcode (encodeRRI op rd rs1 imm) = op := by
  have h := opcode_encodeN op
  simp only [encodeN] at h
  simp only [encodeRRI, opcode_or, h, opcode_index_shift_nine, opcode_index_shift_six, opcode_low_five, BitVec.or_zero]

theorem opcode_encodeRI (op : BitVec 4) (rd : Reg) (imm : Word) : opcode (encodeRI op rd imm) = op := by
  have h := opcode_encodeN op
  simp only [encodeN] at h
  simp only [encodeRI, opcode_or, h, opcode_index_shift_nine, opcode_low_five, BitVec.or_zero]

theorem OpcodeField.add (rd rs1 rs2 : Reg) : OpcodeField.Statement (.add rd rs1 rs2) := opcode_encodeRRR _ rd rs1 rs2

theorem OpcodeField.decrement (rd rs1 : Reg) (imm : Word) : OpcodeField.Statement (.decrement rd rs1 imm) := opcode_encodeRRI _ rd rs1 imm

theorem OpcodeField.and (rd rs1 rs2 : Reg) : OpcodeField.Statement (.and rd rs1 rs2) := opcode_encodeRRR _ rd rs1 rs2

theorem OpcodeField.xor (rd rs1 rs2 : Reg) : OpcodeField.Statement (.xor rd rs1 rs2) := opcode_encodeRRR _ rd rs1 rs2

theorem OpcodeField.load (rd : Reg) (imm : Word) : OpcodeField.Statement (.load rd imm) := opcode_encodeRI _ rd imm

theorem OpcodeField.halt : OpcodeField.Statement .halt := opcode_encodeN _

theorem OpcodeField.undefined6 : OpcodeField.Statement .undefined6 := opcode_encodeN _

theorem OpcodeField.undefined7 : OpcodeField.Statement .undefined7 := opcode_encodeN _

theorem OpcodeField.undefined8 : OpcodeField.Statement .undefined8 := opcode_encodeN _

theorem OpcodeField.undefined9 : OpcodeField.Statement .undefined9 := opcode_encodeN _

theorem OpcodeField.undefined10 : OpcodeField.Statement .undefined10 := opcode_encodeN _

theorem OpcodeField.undefined11 : OpcodeField.Statement .undefined11 := opcode_encodeN _

theorem OpcodeField.undefined12 : OpcodeField.Statement .undefined12 := opcode_encodeN _

theorem OpcodeField.undefined13 : OpcodeField.Statement .undefined13 := opcode_encodeN _

theorem OpcodeField.undefined14 : OpcodeField.Statement .undefined14 := opcode_encodeN _

theorem OpcodeField.undefined15 : OpcodeField.Statement .undefined15 := opcode_encodeN _

end Sys2Proof.Laws
end

