-- ==== Sys2Proof/Laws/Run.lean ====
section
/-! SUPPORT. How `k` steps unfold. -/

namespace Sys2Proof.Safety

open Sys2Proof.Machine

theorem runSteps_zero (s : State) : runSteps 0 s = .next s := rfl

/-- A run goes on from what its first step answers. -/
theorem runSteps_succ {s t : State} (h : step s = .next t) (k : Nat) : runSteps (k + 1) s = runSteps k t := by
  have h' : Host.Core.step Sys2Proof.core s = .next t := h
  simp only [runSteps, Host.Core.run]
  rw [h']

end Sys2Proof.Safety
end

