-- ==== Sys2Proof/Tests/Slice0.lean ====
section
/-! SUPPORT. The model's own tests. Every expected value is from spec/ (95_test_vectors.md unless a comment says
otherwise) or worked out by hand from a rule; the witnesses show that the hypotheses of the statements can be met. -/

namespace Sys2Proof.Tests

open Sys2Proof.Machine Sys2Proof.Safety

/-- The next state, if the outcome is one. -/
def nextOf (o : Host.Outcome State Fault Refusal) : Option State :=
  match o with
  | .next s => some s
  | .fault _ => none
  | .refused _ => none

/-- A running state at PC 0x0010 with two registers set. -/
def twoRegs (a b : Word) : State :=
  { State.reset with regs := { RegFile.zero with r1 := a, r2 := b }, pc := 0x0010#16 }

/-- The step from `s` when it fetches `w`. -/
def stepWord (s : State) (w : Nat) : Option State := nextOf (step (s.withFetchWord 16 w))

/-- The launch state, if the load succeeded. -/
def launched (r : LoadResult) : Option State :=
  match r with
  | .launched s => some s
  | .failed _ => none

/-! ## WellFormed: each check refuses an ill-formed term -/

theorem test_wellFormed_refuses_decrement_above : Instr.wellFormed (.decrement .r0 .r1 0x0010#16) = false := by decide
theorem test_wellFormed_refuses_decrement_below : Instr.wellFormed (.decrement .r0 .r1 0xFFEF#16) = false := by decide
theorem test_wellFormed_refuses_load_above : Instr.wellFormed (.load .r0 0x0010#16) = false := by decide
theorem test_wellFormed_refuses_load_below : Instr.wellFormed (.load .r0 0xFFEF#16) = false := by decide
theorem test_wellFormed_admits_both_ends :
    Instr.wellFormed (.load .r0 0x000F#16) = true ∧ Instr.wellFormed (.load .r0 0xFFF0#16) = true := by decide

/-! ## Decoding: words written out bit by bit from 30_encoding.md R48, R49 -/

-- opcode 0000, destination 001, sourceReg1 010, unused 111, sourceReg2 011
theorem test_decode_add : decode 0b0000_001_010_111_011#16 = .add .r1 .r2 .r3 := by decide
-- opcode 0001, destination 011, sourceReg1 100, unused 1, imm5 11111
theorem test_decode_decrement : decode 0b0001_011_100_1_11111#16 = .decrement .r3 .r4 0xFFFF#16 := by decide
theorem test_decode_and : decode 0b0010_100_011_000_010#16 = .and .r4 .r3 .r2 := by decide
theorem test_decode_xor : decode 0b0011_101_110_000_111#16 = .xor .r5 .r6 .r7 := by decide
-- 0x4370 is `load R1, -16` with bits 8..5 = 1011 (R80)
theorem test_decode_load : decode 0b0100_001_1011_10000#16 = .load .r1 0xFFF0#16 := by decide
theorem test_decode_halt : decode 0b0101_101010111100#16 = .halt := by decide
theorem test_decode_undefined6 : decode 0b0110_111111111111#16 = .undefined6 := by decide
theorem test_decode_undefined7 : decode 0b0111_000000000000#16 = .undefined7 := by decide
theorem test_decode_undefined8 : decode 0b1000_000000000000#16 = .undefined8 := by decide
theorem test_decode_undefined9 : decode 0b1001_101010111100#16 = .undefined9 := by decide
theorem test_decode_undefined10 : decode 0b1010_000000000000#16 = .undefined10 := by decide
theorem test_decode_undefined11 : decode 0b1011_000000000000#16 = .undefined11 := by decide
theorem test_decode_undefined12 : decode 0b1100_000000000000#16 = .undefined12 := by decide
theorem test_decode_undefined13 : decode 0b1101_000000000000#16 = .undefined13 := by decide
theorem test_decode_undefined14 : decode 0b1110_000000000000#16 = .undefined14 := by decide
theorem test_decode_undefined15 : decode 0b1111_111111111111#16 = .undefined15 := by decide

-- 2.1, the rows of 0x9ABC and 0x13DF
theorem test_fields_of_9ABC :
    opcode 0x9ABC#16 = 9#4 ∧ destination 0x9ABC#16 = 5#3 ∧ sourceReg1 0x9ABC#16 = 2#3 ∧ sourceReg2 0x9ABC#16 = 4#3 ∧
      immediate 0x9ABC#16 = 0xFFFC#16 := by decide
theorem test_fields_of_13DF :
    opcode 0x13DF#16 = 1#4 ∧ destination 0x13DF#16 = 1#3 ∧ sourceReg1 0x13DF#16 = 7#3 ∧ sourceReg2 0x13DF#16 = 7#3 ∧
      immediate 0x13DF#16 = 0xFFFF#16 := by decide
-- 2.1, corner values of the sign extender
theorem test_sext_corners :
    sext 5 0#5 = 0x0000#16 ∧ sext 5 15#5 = 0x000F#16 ∧ sext 5 16#5 = 0xFFF0#16 ∧ sext 5 31#5 = 0xFFFF#16 := by decide
-- 2.2
theorem test_encode :
    encode (.add .r7 .r7 .r7) = 0x0FC7#16 ∧ encode (.decrement .r7 .r7 0xFFF0#16) = 0x1FD0#16 ∧
      encode (.and .r4 .r3 .r2) = 0x28C2#16 ∧ encode (.xor .r5 .r5 .r5) = 0x3B45#16 ∧
      encode (.load .r7 0xFFF0#16) = 0x4E10#16 ∧ encode .halt = 0x5000#16 := by decide
theorem test_disassemble_undefined_as_word : disassemble 0xF123#16 = .word 0xF123#16 := by decide

/-! ## The table's words -/

theorem test_decodeTableWord : decodeTableWord 16 0x3000 = some (.xor .r0 .r0 .r0) := by decide
theorem test_decodeTableWord_short : decodeTableWord 8 0xFF = some (decode 0x00FF#16) := by decide
theorem test_decodeBits_rejects_by_name :
    (match decodeBits 17 0 with | .error e => some e | .ok _ => none) = some .longerThanAWord ∧
      (match decodeBits 0 0 with | .error e => some e | .ok _ => none) = some .noBits := by decide

/-! ## Instructions, one step each -/

-- 2.3: 0xFFFF + 0x0001 wraps
theorem test_add_wraps : (stepWord (twoRegs 0xFFFF#16 0x0001#16) 0x0042).map (·.regs.r0) = some 0x0000#16 := by decide
-- 2.3: R0 = 0x4000, the Word 0x0000 doubles it
theorem test_add_doubles_itself :
    (stepWord { State.reset with regs := { RegFile.zero with r0 := 0x4000#16 } } 0x0000).map (·.regs.r0) =
      some 0x8000#16 := by decide
-- 2.4: 0x0000 - 1, the source's scenario S3
theorem test_decrement_borrows : (stepWord State.reset 0x1001).map (·.regs.r0) = some 0xFFFF#16 := by decide
-- 2.4: 0x1234 - (-11) = 0x123F; decrement R0, R1, -11 is 0001 000 001 0 10101
theorem test_decrement_negative_adds :
    (stepWord (twoRegs 0x1234#16 0#16) 0b0001_000_001_0_10101).map (·.regs.r0) = some 0x123F#16 := by decide
-- 2.5; and R0, R1, R2 is 0010 000 001 000 010
theorem test_and : (stepWord (twoRegs 0xF0F0#16 0x0FF0#16) 0b0010_000_001_000_010).map (·.regs.r0) = some 0x00F0#16 := by
  decide
-- 2.5; xor R1, R1, R2, the destination being a source
theorem test_xor_destination_is_source :
    (stepWord (twoRegs 0xF0F0#16 0x0FF0#16) 0b0011_001_001_000_010).map (·.regs.r1) = some 0xFF00#16 := by decide
-- 2.6
theorem test_load_noncanonical : (stepWord State.reset 0x4370).map (·.regs.r1) = some 0xFFF0#16 := by decide
theorem test_load_ignores_old_value :
    (stepWord { State.reset with regs := { RegFile.zero with r0 := 0xBEEF#16 } } 0x4000).map (·.regs.r0) =
      some 0x0000#16 := by decide
-- 2.7: a halt at 0xFFFF
theorem test_halt_at_the_top :
    (stepWord { State.reset with pc := 0xFFFF#16 } 0x5000).map (fun t => (t.pc, t.run)) = some (0x0000#16, false) := by
  decide
theorem test_halt_noncanonical :
    (stepWord (twoRegs 1#16 2#16) 0x5FFF).map (fun t => (t.regs == (twoRegs 1#16 2#16).regs, t.pc, t.run)) =
      some (true, 0x0011#16, false) := by decide
-- 2.7: 0x9E00 at 0xFFFF, R7 not written although bits 11..9 = 111
theorem test_undefined9_writes_nothing :
    (stepWord { State.reset with pc := 0xFFFF#16 } 0x9E00).map (fun t => (t.regs == RegFile.zero, t.pc, t.run)) =
      some (true, 0x0000#16, true) := by decide
theorem test_undefined15_goes_on : (stepWord (twoRegs 1#16 2#16) 0xFFFF).map (fun t => (t.pc, t.run)) =
    some (0x0011#16, true) := by decide
theorem test_undefined6_goes_on : (stepWord (twoRegs 1#16 2#16) 0x6000).map (fun t => (t.pc, t.run)) =
    some (0x0011#16, true) := by decide
-- 2.7: RUN = false, no step
theorem test_halted_state_stays : nextOf (step { State.reset with run := false }) =
    some { State.reset with run := false } := by decide

/-! ## Memory, trace and host -/

theorem test_write_zero_removes_the_entry :
    (memWrite (memWrite State.reset 3#16 0x4203#16) 3#16 0x0000#16).mem = [] := by decide
theorem test_write_at_the_top : memRead (memWrite State.reset 0xFFFF#16 0xBEEF#16) 0xFFFF#16 = 0xBEEF#16 := by decide
-- S4's first trace record: 9, absent, undef
theorem test_trace_undefined : stepTrace (State.reset.withFetchWord 16 0x9000) =
    some { opcode := 9#4, result := none, undef := true } := by decide
-- S3's first trace record: 1, 0xFFFF
theorem test_trace_decrement : stepTrace (State.reset.withFetchWord 16 0x1001) =
    some { opcode := 1#4, result := some 0xFFFF#16, undef := false } := by decide
-- 2.8: 0x4203, 0x5001 gets 0x5000 appended; 0x4203, 0x5000 gets nothing; the empty image is the halt word
theorem test_launch_appends_after_noncanonical :
    (launched (launch (.words [0x4203#16, 0x5001#16]) State.reset)).map (fun s => (memRead s 1#16, memRead s 2#16)) =
      some (0x5001#16, 0x5000#16) := by decide
theorem test_launch_appends_nothing :
    (launched (launch (.words [0x4203#16, 0x5000#16]) State.reset)).map (fun s => (memRead s 1#16, memRead s 2#16)) =
      some (0x5000#16, 0x0000#16) := by decide
theorem test_launch_empty : (launched (launch (.words []) State.reset)).map (fun s => memRead s 0#16) = some 0x5000#16 := by decide
/-- The report of an outcome that has one. -/
def reportOf (o : Host.Outcome (HostSystem × RunReport) Fault Refusal) : Option RunReport :=
  match o with
  | .next p => some p.2
  | .fault _ => none
  | .refused _ => none

-- S1: R1 = 3, PC = 2, RUN false after two steps; with fuel for one the run is not yet halted (R89)
theorem test_program_run_of_scenario_one :
    reportOf (programRun 2 (.words [0x4203#16]) { core := twoRegs 1#16 2#16, go := false }) =
      some (.halted { regs := { RegFile.zero with r1 := 3#16 }, pc := 2#16, run := false }) := by decide
theorem test_program_run_not_yet_halted :
    reportOf (programRun 1 (.words [0x4203#16]) { core := twoRegs 1#16 2#16, go := false }) = some .notYetHalted := by
  decide
-- 2.8: a file of three bytes gives one Word
theorem test_odd_byte_is_dropped :
    imageOfBytes .big [0x42#8, 0x03#8, 0x99#8] = [0x4203#16] ∧
      imageOfBytes .little [0x03#8, 0x42#8, 0x99#8] = [0x4203#16] := by decide
-- R109: 0xFFFF is -1, 0x8000 is -32768
theorem test_signed : signed 0xFFFF#16 = -1 ∧ signed 0x8000#16 = -32768 ∧ signed 0x7FFF#16 = 32767 := by decide
theorem test_load_while_go_is_ignored : loadWord true 0#16 0x1234#16 State.reset = State.reset := by decide

/-! ## Witnesses: the hypotheses of each statement can be met -/

theorem witness_ResetLeavesTheSpecValues : State.reset = State.reset ∨ State.reset = hostReset State.reset := by decide
/-- For SignExtensionKeepsTheSignedValue: a negative value at width 1, a positive one at width 16. -/
theorem witness_SignExtension_both_signs :
    (1 ≤ 1 ∧ 1 ≤ 16 ∧ ¬ (1#1).toNat < 2 ^ (1 - 1)) ∧ (1 ≤ 16 ∧ 16 ≤ 16 ∧ (0x7FFF#16).toNat < 2 ^ (16 - 1)) := by decide
theorem witness_SignExtensionFills :
    (4 < 16 ∧ 4 < 5) ∧ (5 < 16 ∧ ¬ 5 < 5) ∧ 16 ≤ (16#5).toNat ∧ (15#5).toNat ≤ 15 := by decide
theorem witness_IgnoredBitsDoNotMatter :
    0x0FFF#16 &&& (shapeOf (opcode 0x0FFF#16)).usedBits = 0x0FC7#16 &&& (shapeOf (opcode 0x0FFF#16)).usedBits := by decide
theorem witness_DecodeOfEncode :
    WellFormed (.decrement .r7 .r0 0xFFF0#16) ∧ WellFormed (.load .r0 0x000F#16) := by decide
theorem witness_EncodeOfDecode : (opcode 0x5FFF#16).toNat ≤ 5 ∧ ¬ (opcode 0x6000#16).toNat ≤ 5 := by decide
/-- For the decoding clauses of AddWritesTheWrappedSum, DecrementWritesTheWrappedDifference, AndWritesTheBitwiseAnd,
XorWritesTheBitwiseXor, LoadWritesTheImmediate, HaltClearsOnlyTheRunningFlag and UndefinedOpcodesAreNoOps. -/
theorem witness_opcode_clauses :
    opcode 0x0FFF#16 = 0#4 ∧ opcode 0x1FFF#16 = 1#4 ∧ opcode 0x2000#16 = 2#4 ∧ opcode 0x3000#16 = 3#4 ∧
      opcode 0x4FFF#16 = 4#4 ∧ opcode 0x5FFF#16 = 5#4 ∧ 6 ≤ (opcode 0x6000#16).toNat ∧ 6 ≤ (opcode 0xFFFF#16).toNat := by
  decide
theorem witness_UndefinedOpcodesAreNoOps :
    Instr.undefined6 ∈ undefinedInstrs ∧ Instr.undefined15 ∈ undefinedInstrs := by decide
theorem witness_InstructionsReadOnlyRegisters (r : Reg) :
    readReg State.reset r = readReg { State.reset with pc := 9#16, run := false, mem := [(0, 1#8)] } r := by
  cases r <;> rfl
theorem witness_StepRunsTheDecodedInstruction :
    Running (State.reset.withFetchWord 16 0x4203) ∧
      decode (memRead (State.reset.withFetchWord 16 0x4203) (State.reset.withFetchWord 16 0x4203).pc) =
        .load .r1 0x0003#16 := by decide
/-- For EveryStepAdvancesPcByOne, StepWritesPcAndAtMostOneOther, OnlyHaltStopsTheLoop, TraceRecordMatchesTheStep,
FetchedWordDecidesTheResult (with the next witness), and the step clauses of HaltClearsOnlyTheRunningFlag and
UndefinedOpcodesAreNoOps. -/
theorem witness_running_at_each_opcode_class :
    (Running (State.reset.withFetchWord 16 0x4E00) ∧ opcode (fetch (State.reset.withFetchWord 16 0x4E00)) = 4#4) ∧
    (Running (State.reset.withFetchWord 16 0x5FFF) ∧ opcode (fetch (State.reset.withFetchWord 16 0x5FFF)) = 5#4) ∧
    (Running (State.reset.withFetchWord 16 0x6000) ∧
      6 ≤ (opcode (fetch (State.reset.withFetchWord 16 0x6000))).toNat) := by decide
theorem witness_running_at_each_alu_opcode :
    opcode (fetch (State.reset.withFetchWord 16 0x0FFF)) = 0#4 ∧ opcode (fetch (State.reset.withFetchWord 16 0x1000)) = 1#4 ∧
      opcode (fetch (State.reset.withFetchWord 16 0x2000)) = 2#4 ∧
      opcode (fetch (State.reset.withFetchWord 16 0x3000)) = 3#4 := by decide
theorem witness_NoStepWhenHaltedOrDisabled : Halted { State.reset with run := false } := by decide
theorem witness_EveryTransitionKeepsMemoryCanonical :
    MemoryCanonical (memWrite State.reset 0xFFFF#16 0xBEEF#16) ∧
      nextOf (step (memWrite State.reset 0xFFFF#16 0xBEEF#16)) =
        some { memWrite State.reset 0xFFFF#16 0xBEEF#16 with pc := 1#16 } := by decide
theorem witness_EveryTransition_transaction :
    transact (.loadWord 0#16 0x4203#16) { core := State.reset, go := false } =
      .next { core := memWrite State.reset 0#16 0x4203#16, go := false } := rfl
theorem witness_MemWriteSetsOneCell :
    MemoryCanonical (memWrite State.reset 5#16 0x1200#16) ∧
      memRead (memWrite (memWrite State.reset 5#16 0x1200#16) 6#16 7#16) 5#16 = 0x1200#16 := by decide
theorem witness_CanonicalMemories :
    MemoryCanonical (twoRegs 1#16 2#16) ∧ MemoryCanonical State.reset ∧ SameMemory (twoRegs 1#16 2#16) State.reset :=
  ⟨by decide, by decide, fun _ => rfl⟩
theorem witness_PlacedWord : MemoryCanonical State.reset := by decide

/-- S1's launch state: `load R1, 3` and the appended halt. -/
def scenarioOne : State := memWrite (memWrite State.reset 0#16 0x4203#16) 1#16 0x5000#16

theorem witness_RunEndsAtTheFirstHaltWord :
    Running scenarioOne ∧ HaltsAt scenarioOne (fetchAddr scenarioOne 1) ∧
      ∀ j : Nat, j < 1 → ¬ HaltsAt scenarioOne (fetchAddr scenarioOne j) := by decide
theorem witness_WithoutHaltWord : Running State.reset ∧ ∀ a : Word, ¬ HaltsAt State.reset a := by
  refine ⟨rfl, fun a h => ?_⟩
  have e : memRead State.reset a = 0#16 := by
    simp [memRead, Memory.readWord, Memory.readByte, Memory.unlisted]
  rw [HaltsAt, e] at h
  exact absurd h (by decide)
theorem witness_DisabledTransactions :
    enabled (.loadWord 0#16 1#16) { core := State.reset, go := true } = false ∧
      enabled .step { core := State.reset, go := false } = false := by decide
theorem witness_OnlyResetLeavesHalted :
    Halted (HostSystem.core { core := { State.reset with run := false }, go := true }) ∧
      Transaction.step ≠ .reset := by decide
/-- For LaunchStateHoldsTheImage, each of its clauses at a boundary, and EveryLoadedImageHalts. -/
theorem witness_Launch_clauses :
    [0x4203#16].length < 65536 ∧ (0#16).toNat < [0x4203#16].length ∧
      ((1#16).toNat = [0x4203#16].length ∧ [0x4203#16].getLast? ≠ some 0x5000#16) ∧
      ¬ ([0x4203#16, 0x5000#16].getLast? ≠ some 0x5000#16) ∧ [0x4203#16].length < (2#16).toNat := by decide
/-- For UnloadableImageIsNeverRun: an image one Word too long, and one that cannot be read. -/
theorem witness_UnloadableImageIsNeverRun_too_long :
    ∀ img : List Word, Image.words (List.replicate 65536 0x0000#16) = .words img → 65536 ≤ img.length := by
  intro img h
  cases h
  rw [List.length_replicate]
theorem witness_UnloadableImageIsNeverRun_unreadable :
    ∀ img : List Word, Image.unreadable [] = .words img → 65536 ≤ img.length := by
  intro img h
  cases h
/-- For FileLoadsExactlyWhenReadableAndSmall: both sides of its boundary. -/
theorem witness_FileLoads :
    131072 ≤ (List.replicate 131072 (0x00#8 : Byte)).length ∧ ¬ 131072 ≤ (List.replicate 131071 (0x00#8 : Byte)).length := by
  rw [List.length_replicate, List.length_replicate]
  decide
theorem witness_ImageWords : 0 < [0x42#8, 0x03#8, 0x99#8].length / 2 := by decide
/-- For ProgramRunIsLaunchThenSteps: S1's image with fuel enough and with less. -/
theorem witness_ProgramRun :
    (HostSystem.go { core := twoRegs 1#16 2#16, go := false } = false) ∧ [0x4203#16].length < 65536 ∧
      [0x4203#16].length + 1 ≤ 2 ∧ ¬ [0x4203#16].length + 1 ≤ 1 := by decide
/-- For EveryProgramRunEndsInOneWay, each of its clauses. -/
theorem witness_EveryProgramRunEnds :
    HostSystem.go { core := State.reset, go := false } = false ∧ ¬ 65536 ≤ [0x4203#16].length ∧
      65536 ≤ (List.replicate 65536 (0x0000#16 : Word)).length := by
  rw [List.length_replicate]
  decide
/-- S5's image halts within its one step, an unreadable one fails: the reports RunsInTurnDoNotInterfere starts from. -/
theorem witness_RunsInTurn :
    List.Forall₂ (fun im r => r ≠ .notYetHalted ∧
      ∃ y, programRun 1 im { core := State.reset, go := false } = .next (y, r))
      [.words [], .unreadable [0x4203#16]]
      [.halted { regs := RegFile.zero, pc := 1#16, run := false }, .loadFailure] := by
  refine .cons ⟨by decide, ⟨{ memWrite State.reset 0#16 0x5000#16 with pc := 1#16, run := false }, false⟩, rfl⟩
    (.cons ⟨by decide, ⟨applyLoads (loaderWrites (.unreadable [0x4203#16])) State.reset, false⟩, ?_⟩ .nil)
  exact congrArg (andThen · _) (transactAll_loads (loaderWrites (.unreadable [0x4203#16])) State.reset)

end Sys2Proof.Tests
end

section
/-! PROOFS. What an instruction and a step do to PC, RUN, memory and the registers, and what they read (10_state.md
sections 2 to 4). -/

namespace Sys2Proof.Machine

/-- Decoding keeps the opcode field (R54). -/
theorem opcode_decode (w : Word) : (decode w).opcode = opcode w := by
  apply BitVec.eq_of_toNat_eq
  have hlt : (opcode w).toNat < 16 := (opcode w).isLt
  unfold decode
  split
  case h_16 =>
    simp only [imp_false] at *
    have h15 : (opcode w).toNat = 15 := by omega
    exact h15.symm
  all_goals exact Eq.symm ‹_ = _›

/-- Every handler leaves PC and memory alone, and RUN too unless the opcode is 5 (R21, R24, R36). -/
theorem exec_frame (i : Instr) (s : State) :
    ∃ t, exec i s = .next t ∧ t.pc = s.pc ∧ t.mem = s.mem ∧ t.run = (s.run && decide (i.opcode ≠ 5#4)) := by
  obtain ⟨rd, v, hop, he⟩ | ⟨rfl, he⟩ | ⟨hop, he⟩ := exec_cases i s
  · have hne : i.opcode ≠ 5#4 := by bv_omega
    exact ⟨_, he, rfl, rfl, by simp [hne]⟩
  · exact ⟨_, he, rfl, rfl, by simp [Instr.opcode]⟩
  · have hne : i.opcode ≠ 5#4 := by bv_omega
    exact ⟨_, he, rfl, rfl, by simp [hne]⟩

/-- What every step of a running machine does to PC, memory and RUN, from the fetched Word's opcode. -/
theorem step_frame {s : State} (h : s.run = true) :
    ∃ t, step s = .next t ∧ t.pc = s.pc + 1#16 ∧ t.mem = s.mem ∧ t.run = decide (opcode (fetch s) ≠ 5#4) := by
  obtain ⟨t, he, hpc, hmem, hrun⟩ := exec_frame (fetchInstr s) (advancePc s)
  refine ⟨t, (step_of_running h).trans he, hpc, hmem, ?_⟩
  simpa [fetchInstr, opcode_decode, h] using hrun

/-- What a handler does to the registers: its result into a register that the instruction alone names, or nothing. -/
theorem exec_regs (i : Instr) :
    (∃ rd, ∀ s, ∃ v, handlerResult i s = some v ∧ exec i s = .next (writeReg s rd v)) ∨
    ∀ s, ∃ t, exec i s = .next t ∧ t.regs = s.regs := by
  cases i with
  | add rd rs1 rs2 => exact .inl ⟨rd, fun s => ⟨_, rfl, rfl⟩⟩
  | decrement rd rs1 imm => exact .inl ⟨rd, fun s => ⟨_, rfl, rfl⟩⟩
  | and rd rs1 rs2 => exact .inl ⟨rd, fun s => ⟨_, rfl, rfl⟩⟩
  | xor rd rs1 rs2 => exact .inl ⟨rd, fun s => ⟨_, rfl, rfl⟩⟩
  | load rd imm => exact .inl ⟨rd, fun s => ⟨_, rfl, rfl⟩⟩
  | halt => exact .inr fun s => ⟨clearRun s, rfl, rfl⟩
  | _ => exact .inr fun s => ⟨s, rfl, rfl⟩

/-- A handler's result depends on the state through its source registers alone. -/
theorem handlerResult_congr (i : Instr) {s u : State} (h : ∀ r, readReg s r = readReg u r) :
    handlerResult i s = handlerResult i u := by
  have hsrc : srcReg s = srcReg u := funext h
  cases i <;> simp only [handlerResult, resultAdd, resultDecrement, resultAnd, resultXor, hsrc]

end Sys2Proof.Machine
end

section
/-! PROOFS. The canonical memory list is determined by the Words it reads as (log entry 1). -/

namespace Sys2Proof.Machine

/-- A canonical list lists exactly what does not read as unlisted. -/
theorem Memory.mem_iff_readByte {m : List Host.Cell} (h : Memory.wf m = true) (c : Host.Cell) :
    c ∈ m ↔ Memory.readByte m c.1 = c.2 ∧ c.2 ≠ Memory.unlisted := by
  induction m with
  | nil => simp [Memory.readByte, eq_comm]
  | cons d m ih =>
    obtain ⟨hlt, hd, -, hm⟩ := (Memory.wf_cons d m).1 h
    rw [List.mem_cons, ih hm, Memory.readByte]
    by_cases hk : d.1 = c.1
    · have hrest : Memory.readByte m c.1 = Memory.unlisted :=
        Memory.readByte_of_not_listed fun e he => hk ▸ (hlt e he).ne'
      rw [if_pos hk, hrest, Prod.ext_iff]
      constructor
      · rintro (⟨-, hc⟩ | ⟨hc, hne⟩)
        · exact ⟨hc.symm, hc ▸ hd⟩
        · exact absurd hc.symm hne
      · exact fun hc => .inl ⟨hk.symm, hc.1.symm⟩
    · have hne : c ≠ d := fun hc => hk (congrArg Prod.fst hc).symm
      simp [hk, hne]

/-- Strictly rising keys: canonical lists that agree on every half Word have the same entries in the same order. -/
theorem Memory.eq_of_readByte {m n : List Host.Cell} (hm : Memory.wf m = true) (hn : Memory.wf n = true)
    (h : ∀ k, Memory.readByte m k = Memory.readByte n k) : m = n := by
  obtain ⟨hms, -⟩ := (Memory.wf_iff m).1 hm
  obtain ⟨hns, -⟩ := (Memory.wf_iff n).1 hn
  have hperm : m.Perm n := by
    refine (List.perm_ext_iff_of_nodup ?_ ?_).2 fun c => ?_
    · exact hms.imp fun hcd hc => (hc ▸ hcd).false
    · exact hns.imp fun hcd hc => (hc ▸ hcd).false
    · rw [Memory.mem_iff_readByte hm, Memory.mem_iff_readByte hn, h]
  exact hperm.eq_of_pairwise (fun _ _ _ _ hcd hdc => (lt_asymm hcd hdc).elim) hms hns

/-- No key outside the array is listed. -/
theorem Memory.readByte_of_keyBound_le {m : List Host.Cell} (h : Memory.wf m = true) {k : Nat}
    (hk : Memory.keyBound ≤ k) : Memory.readByte m k = Memory.unlisted := by
  obtain ⟨-, hlisted⟩ := (Memory.wf_iff m).1 h
  exact Memory.readByte_of_not_listed fun c hc => ((hlisted c hc).2.trans_le hk).ne

/-- The half Word at a key of the array is a half of the Word at the key's address. -/
theorem Memory.readByte_eq_extract_readWord (m : List Host.Cell) (a : Word) :
    Memory.readByte m (2 * a.toNat) = (Memory.readWord m a).extractLsb' 0 8 ∧
    Memory.readByte m (2 * a.toNat + 1) = (Memory.readWord m a).extractLsb' 8 8 :=
  ⟨BitVec.extractLsb'_append_eq_right.symm, BitVec.extractLsb'_append_eq_left.symm⟩

/-- Canonical lists that read alike as Words read alike as half Words. -/
theorem Memory.readByte_congr_of_readWord {m n : List Host.Cell} (hm : Memory.wf m = true)
    (hn : Memory.wf n = true) (h : ∀ a, Memory.readWord m a = Memory.readWord n a) (k : Nat) :
    Memory.readByte m k = Memory.readByte n k := by
  by_cases hk : Memory.keyBound ≤ k
  · rw [Memory.readByte_of_keyBound_le hm hk, Memory.readByte_of_keyBound_le hn hk]
  · have ha : (BitVec.ofNat 16 (k / 2)).toNat = k / 2 := by
      simp only [Memory.keyBound, Config.memWords] at hk
      rw [BitVec.toNat_ofNat]
      omega
    obtain ⟨hm0, hm1⟩ := Memory.readByte_eq_extract_readWord m (BitVec.ofNat 16 (k / 2))
    obtain ⟨hn0, hn1⟩ := Memory.readByte_eq_extract_readWord n (BitVec.ofNat 16 (k / 2))
    rw [ha] at hm0 hm1 hn0 hn1
    obtain hpar | hpar : k = 2 * (k / 2) ∨ k = 2 * (k / 2) + 1 := by omega
    · rw [hpar, hm0, hn0, h]
    · rw [hpar, hm1, hn1, h]

end Sys2Proof.Machine
end

section
/-! PROOFS. The state obligations (10_state.md): what the reset state holds, and the statements settled. -/

namespace Sys2Proof.Machine

open Sys2Proof.Safety

@[simp] theorem readReg_reset (r : Reg) : readReg State.reset r = 0x0000#16 := by
  cases r <;> rfl

/-- An empty list reads as zero at every address. -/
@[simp] theorem memRead_reset (a : Word) : memRead State.reset a = 0x0000#16 := by
  simp [memRead, Memory.readWord, Memory.readByte, Memory.unlisted]

/-- Settles O1: RESET leaves the reset state, whatever came before, and that state holds R30's values. -/
theorem resetLeavesTheSpecValues : Obligations.ResetLeavesTheSpecValues := by
  intro s u hu
  obtain rfl : u = State.reset := hu.elim id (·.trans (hostReset_eq s))
  exact ⟨readReg_reset, reset_pc, reset_run, memRead_reset⟩

/-- Settles O22: equal registers give equal results, written to the same register. -/
theorem instructionsReadOnlyRegisters : Obligations.InstructionsReadOnlyRegisters := by
  intro i s u h
  have hres : handlerResult i s = handlerResult i u := handlerResult_congr i h
  refine ⟨?_, by simp only [traceOf, hres]⟩
  obtain ⟨rd, hw⟩ | hkeep := exec_regs i
  · obtain ⟨v, hv, hs⟩ := hw s
    obtain ⟨v', hv', hu⟩ := hw u
    obtain rfl : v = v' := Option.some.inj (hv.symm.trans (hres.trans hv'))
    exact ⟨_, _, hs, hu, fun r => by simp only [readReg_writeReg, h r]⟩
  · obtain ⟨t, hs, ht⟩ := hkeep s
    obtain ⟨t', hu, ht'⟩ := hkeep u
    exact ⟨t, t', hs, hu, fun r => by rw [readReg_of_regs ht, readReg_of_regs ht', h r]⟩

/-- Settles O24: a step dispatches with PC already advanced, and no handler writes PC. -/
theorem everyStepAdvancesPcByOne : Obligations.EveryStepAdvancesPcByOne := by
  refine ⟨fun s hs => ⟨step_of_running hs, ?_⟩, fun i s => ?_⟩
  · obtain ⟨t, hstep, hpc, -⟩ := step_frame hs
    exact ⟨t, hstep, by rw [hpc, BitVec.toNat_add]; rfl⟩
  · obtain ⟨t, he, hpc, -⟩ := exec_frame i s
    exact ⟨t, he, hpc⟩

/-- Settles O27: RUN after a step says whether the fetched opcode was 5. -/
theorem onlyHaltStopsTheLoop : Obligations.OnlyHaltStopsTheLoop := by
  intro s hs
  obtain ⟨t, hstep, -, -, hrun⟩ := step_frame hs
  exact ⟨t, hstep, by simp [Halted, hrun]⟩

/-- Settles O34: Words alike, so half Words alike, so the same list. -/
theorem canonicalMemoriesThatReadAlikeAreEqual : Obligations.CanonicalMemoriesThatReadAlikeAreEqual :=
  fun _ _ hs ht h =>
    Memory.eq_of_readByte hs ht (Memory.readByte_congr_of_readWord hs ht fun a => (h a).symm)

end Sys2Proof.Machine
end

section
/-! PROOFS. The memory obligations (20_memory.md): a Word read after a Word written, and that no step writes memory. -/

namespace Sys2Proof.Machine

open Sys2Proof.Safety

/-- The low half's key of every Word is a key of the array. -/
theorem Memory.lowKey_lt_keyBound (a : Word) : 2 * a.toNat < Memory.keyBound := by
  have ha : a.toNat < 65536 := a.isLt
  simp only [Memory.keyBound, Config.memWords]
  omega

/-- A half Word read after a Word is written: one of the Word's two halves, or what was there. -/
theorem Memory.readByte_writeWord {m : List Host.Cell} (h : Memory.wf m = true) (a v : Word) (k : Nat) :
    Memory.readByte (Memory.writeWord m a v) k =
      if k = 2 * a.toNat + 1 then v.extractLsb' 8 8
      else if k = 2 * a.toNat then v.extractLsb' 0 8
      else Memory.readByte m k := by
  have hlow : Memory.wf (Memory.writeByte m (2 * a.toNat) (v.extractLsb' 0 8)) = true :=
    Memory.wf_writeByte _ h (Memory.lowKey_lt_keyBound a)
  rw [Memory.writeWord, Memory.readByte_writeByte hlow, Memory.readByte_writeByte h]

/-- The array reads the written Word at its address and every other Word as before (R34). -/
theorem Memory.readWord_writeWord {m : List Host.Cell} (h : Memory.wf m = true) (a v b : Word) :
    Memory.readWord (Memory.writeWord m a v) b = if b = a then v else Memory.readWord m b := by
  rw [Memory.readWord, Memory.readByte_writeWord h, Memory.readByte_writeWord h]
  by_cases hba : b = a
  · have heven : 2 * a.toNat ≠ 2 * a.toNat + 1 := by omega
    simp only [hba, if_true, if_neg heven]
    exact (BitVec.extractLsb'_append_extractLsb'_eq_extractLsb' rfl).trans BitVec.extractLsb'_eq_self
  · have hne : b.toNat ≠ a.toNat := fun hab => hba (BitVec.eq_of_toNat_eq hab)
    rw [if_neg (by omega), if_neg (by omega), if_neg (by omega), if_neg (by omega), if_neg hba, Memory.readWord]

/-- A step completes with the memory it began with, running or halted (R36, R88). -/
theorem step_keeps_mem (s : State) : ∃ t, step s = .next t ∧ t.mem = s.mem := by
  cases hrun : s.run with
  | false => exact ⟨s, step_of_halted hrun, rfl⟩
  | true =>
    obtain ⟨t, hstep, -, hmem, -⟩ := step_frame hrun
    exact ⟨t, hstep, hmem⟩

/-- Settles O31, by induction on the number of steps. -/
theorem stepsNeverWriteMemory : Obligations.StepsNeverWriteMemory := by
  intro k
  induction k with
  | zero => exact fun s => ⟨s, runSteps_zero s, rfl⟩
  | succ k ih =>
    intro s
    obtain ⟨u, hstep, hu⟩ := step_keeps_mem s
    obtain ⟨t, hrest, ht⟩ := ih u
    exact ⟨t, (runSteps_succ hstep k).trans hrest, ht.trans hu⟩

/-- Settles O33: read after write on the canonical list; no other field is written. -/
theorem memWriteSetsOneCell : Obligations.MemWriteSetsOneCell :=
  fun s a v h =>
    ⟨fun b => Memory.readWord_writeWord h a v b, memWrite_regs s a v, memWrite_pc s a v, memWrite_run s a v⟩

end Sys2Proof.Machine
end

section
/-! PROOFS. The fields of a Word as numbers, the immediate's range, and the canonical encoding as the sum of its
fields (30_encoding.md R48, R52, R60; 40_decoder.md R68 to R72). -/

namespace Sys2Proof.Encoding

/-! ## The extractors as quotients and remainders -/

theorem toNat_opcode (w : Word) : (opcode w).toNat = w.toNat / 4096 := by
  have hw : w.toNat < 65536 := w.isLt
  simp only [opcode, BitVec.extractLsb'_toNat, Nat.shiftRight_eq_div_pow]
  omega

theorem toNat_destination (w : Word) : (destination w).toNat = w.toNat / 512 % 8 := by
  simp [destination, Nat.shiftRight_eq_div_pow]

theorem toNat_sourceReg1 (w : Word) : (sourceReg1 w).toNat = w.toNat / 64 % 8 := by
  simp [sourceReg1, Nat.shiftRight_eq_div_pow]

theorem toNat_sourceReg2 (w : Word) : (sourceReg2 w).toNat = w.toNat % 8 := by
  simp [sourceReg2]

theorem toNat_imm5 (w : Word) : (imm5 w).toNat = w.toNat % 32 := by
  simp [imm5]

/-! ## The immediate (R52, R72) -/

theorem toNat_sext_five (v : BitVec 5) :
    (sext 5 v).toNat = if v.toNat < 16 then v.toNat else v.toNat + 65504 := by
  revert v; decide

theorem toNat_immediate (w : Word) :
    (immediate w).toNat = if w.toNat % 32 < 16 then w.toNat % 32 else w.toNat % 32 + 65504 := by
  rw [immediate, toNat_sext_five, toNat_imm5]

/-- The immediate reads only the five bits of its field. -/
theorem immediate_congr {w v : Word} (h : w.toNat % 32 = v.toNat % 32) : immediate w = immediate v := by
  apply BitVec.eq_of_toNat_eq
  rw [toNat_immediate, toNat_immediate, h]

/-- The 32 Words of R52 as unsigned numbers. -/
theorem immInRange_iff (imm : Word) : immInRange imm = true ↔ imm.toNat < 16 ∨ 65520 ≤ imm.toNat := by
  have hlt : imm.toNat < 65536 := imm.isLt
  simp only [immInRange, Bool.and_eq_true, decide_eq_true_eq, BitVec.toInt_eq_toNat_cond]
  omega

theorem immInRange_immediate (w : Word) : immInRange (immediate w) = true := by
  rw [immInRange_iff, toNat_immediate]
  split <;> omega

/-- An immediate in range is determined by its low five bits (R52). -/
theorem immediate_eq_self {imm : Word} (h : immInRange imm = true) : immediate imm = imm := by
  rw [immInRange_iff] at h
  have hlt : imm.toNat < 65536 := imm.isLt
  apply BitVec.eq_of_toNat_eq
  rw [toNat_immediate]
  split <;> omega

theorem toNat_low_five (w : Word) : (w &&& 0x1F#16).toNat = w.toNat % 32 := by
  rw [BitVec.toNat_and]
  exact Nat.and_two_pow_sub_one_eq_mod w.toNat 5

theorem immediate_low_five (w : Word) : immediate w &&& 0x1F#16 = w &&& 0x1F#16 := by
  apply BitVec.eq_of_toNat_eq
  rw [toNat_low_five, toNat_low_five, toNat_immediate]
  split <;> omega

/-! ## Register indices (R53) -/

theorem ofIndex_index (r : Reg) : Reg.ofIndex r.index = r := by
  cases r <;> rfl

theorem index_ofIndex (k : BitVec 3) : (Reg.ofIndex k).index = k := by
  revert k; decide

/-! ## The canonical encoding as a sum (R60) -/

/-- A disjunction is a sum where one part lies above bit `k` and the other below. -/
theorem toNat_or_of_dvd_of_lt (k : Nat) {x y : Word} (hx : 2 ^ k ∣ x.toNat) (hy : y.toNat < 2 ^ k) :
    (x ||| y).toNat = x.toNat + y.toNat := by
  obtain ⟨a, ha⟩ := hx
  rw [BitVec.toNat_or, ha, Nat.two_pow_add_eq_or_of_lt hy]

/-- A field of `n` bits placed at bit `k` of a Word that has room for it. -/
theorem toNat_placed {n : Nat} (x : BitVec n) (k : Nat) (h : n + k ≤ 16) :
    (x.setWidth 16 <<< k).toNat = x.toNat * 2 ^ k := by
  have hfit : x.toNat * 2 ^ k < 2 ^ 16 :=
    calc x.toNat * 2 ^ k < 2 ^ n * 2 ^ k := Nat.mul_lt_mul_of_pos_right x.isLt (Nat.two_pow_pos k)
      _ = 2 ^ (n + k) := (Nat.pow_add 2 n k).symm
      _ ≤ 2 ^ 16 := Nat.pow_le_pow_right (by decide) h
  rw [BitVec.toNat_shiftLeft, BitVec.toNat_setWidth_of_le (by omega), Nat.shiftLeft_eq, Nat.mod_eq_of_lt hfit]

theorem toNat_encodeN (op : BitVec 4) : (encodeN op).toNat = op.toNat * 4096 :=
  toNat_placed op 12 (by decide)

theorem toNat_index_setWidth (r : Reg) : (r.index.setWidth 16).toNat = r.index.toNat :=
  BitVec.toNat_setWidth_of_le (by decide)

/-- The part RRR, RRI and RI share: opcode and destination. -/
theorem toNat_opcode_rd (op : BitVec 4) (rd : Reg) :
    (op.setWidth 16 <<< 12 ||| rd.index.setWidth 16 <<< 9).toNat = op.toNat * 4096 + rd.index.toNat * 512 := by
  have hop := toNat_placed op 12 (by decide)
  have hrd := toNat_placed rd.index 9 (by decide)
  have hidx := rd.index.isLt
  rw [toNat_or_of_dvd_of_lt 12 (by omega) (by omega)]
  omega

/-- The part RRR and RRI share: opcode, destination and first source. -/
theorem toNat_opcode_rd_rs1 (op : BitVec 4) (rd rs1 : Reg) :
    (op.setWidth 16 <<< 12 ||| rd.index.setWidth 16 <<< 9 ||| rs1.index.setWidth 16 <<< 6).toNat =
      op.toNat * 4096 + rd.index.toNat * 512 + rs1.index.toNat * 64 := by
  have hhead := toNat_opcode_rd op rd
  have hrs1 := toNat_placed rs1.index 6 (by decide)
  have hidx := rs1.index.isLt
  rw [toNat_or_of_dvd_of_lt 9 (by omega) (by omega)]
  omega

theorem toNat_encodeRRR (op : BitVec 4) (rd rs1 rs2 : Reg) :
    (encodeRRR op rd rs1 rs2).toNat =
      op.toNat * 4096 + rd.index.toNat * 512 + rs1.index.toNat * 64 + rs2.index.toNat := by
  have hhead := toNat_opcode_rd_rs1 op rd rs1
  have hrs2 := toNat_index_setWidth rs2
  have hidx := rs2.index.isLt
  rw [encodeRRR, toNat_or_of_dvd_of_lt 6 (by omega) (by omega), hhead, hrs2]

theorem toNat_encodeRRI (op : BitVec 4) (rd rs1 : Reg) (imm : Word) :
    (encodeRRI op rd rs1 imm).toNat =
      op.toNat * 4096 + rd.index.toNat * 512 + rs1.index.toNat * 64 + imm.toNat % 32 := by
  have hhead := toNat_opcode_rd_rs1 op rd rs1
  have himm := toNat_low_five imm
  rw [encodeRRI, toNat_or_of_dvd_of_lt 6 (by omega) (by omega), hhead, himm]

theorem toNat_encodeRI (op : BitVec 4) (rd : Reg) (imm : Word) :
    (encodeRI op rd imm).toNat = op.toNat * 4096 + rd.index.toNat * 512 + imm.toNat % 32 := by
  have hhead := toNat_opcode_rd op rd
  have himm := toNat_low_five imm
  rw [encodeRI, toNat_or_of_dvd_of_lt 9 (by omega) (by omega), hhead, himm]

/-! ## The fields of a canonical encoding -/

theorem fields_encodeRRR (op : BitVec 4) (rd rs1 rs2 : Reg) :
    destination (encodeRRR op rd rs1 rs2) = rd.index ∧ sourceReg1 (encodeRRR op rd rs1 rs2) = rs1.index ∧
      sourceReg2 (encodeRRR op rd rs1 rs2) = rs2.index := by
  have hd := rd.index.isLt
  have h1 := rs1.index.isLt
  have h2 := rs2.index.isLt
  simp only [← BitVec.toNat_inj, toNat_destination, toNat_sourceReg1, toNat_sourceReg2, toNat_encodeRRR]
  omega

/-- The immediate of an RRI encoding is the operand's five low bits, extended. -/
theorem fields_encodeRRI (op : BitVec 4) (rd rs1 : Reg) (imm : Word) :
    destination (encodeRRI op rd rs1 imm) = rd.index ∧ sourceReg1 (encodeRRI op rd rs1 imm) = rs1.index ∧
      immediate (encodeRRI op rd rs1 imm) = immediate imm := by
  have hd := rd.index.isLt
  have h1 := rs1.index.isLt
  have hsum := toNat_encodeRRI op rd rs1 imm
  refine ⟨?_, ?_, immediate_congr (by omega)⟩
  · rw [← BitVec.toNat_inj, toNat_destination]
    omega
  · rw [← BitVec.toNat_inj, toNat_sourceReg1]
    omega

/-- The immediate of an RI encoding is the operand's five low bits, extended. -/
theorem fields_encodeRI (op : BitVec 4) (rd : Reg) (imm : Word) :
    destination (encodeRI op rd imm) = rd.index ∧ immediate (encodeRI op rd imm) = immediate imm := by
  have hd := rd.index.isLt
  have hsum := toNat_encodeRI op rd imm
  refine ⟨?_, immediate_congr (by omega)⟩
  rw [← BitVec.toNat_inj, toNat_destination]
  omega

end Sys2Proof.Encoding
end

section
/-! PROOFS. The encoding obligations (30_encoding.md): the decoder on a canonical Word, the encoder on a decoded one,
and the statements settled. -/

namespace Sys2Proof.Encoding

open Sys2Proof.Machine Sys2Proof.Safety Sys2Proof.Laws

/-! ## The decoder on a canonical Word, shape by shape -/

/-- The registers the decoder selects in an RRR encoding are the operands. -/
theorem regs_encodeRRR (op : BitVec 4) (rd rs1 rs2 : Reg) :
    Reg.ofIndex (destination (encodeRRR op rd rs1 rs2)) = rd ∧
      Reg.ofIndex (sourceReg1 (encodeRRR op rd rs1 rs2)) = rs1 ∧
      Reg.ofIndex (sourceReg2 (encodeRRR op rd rs1 rs2)) = rs2 := by
  obtain ⟨hrd, hrs1, hrs2⟩ := fields_encodeRRR op rd rs1 rs2
  simp only [hrd, hrs1, hrs2, ofIndex_index, and_self]

theorem decode_encode_decrement (rd rs1 : Reg) {imm : Word} (h : immInRange imm = true) :
    decode (encode (.decrement rd rs1 imm)) = .decrement rd rs1 imm := by
  obtain ⟨hrd, hrs1, himm⟩ := fields_encodeRRI 1#4 rd rs1 imm
  simp [decode, encode, Instr.opcode, opcode_encodeRRI, hrd, hrs1, himm, ofIndex_index, immediate_eq_self h]

theorem decode_encode_load (rd : Reg) {imm : Word} (h : immInRange imm = true) :
    decode (encode (.load rd imm)) = .load rd imm := by
  obtain ⟨hrd, himm⟩ := fields_encodeRI 4#4 rd imm
  simp [decode, encode, Instr.opcode, opcode_encodeRI, hrd, himm, ofIndex_index, immediate_eq_self h]

/-- Settles O9: the fields of a canonical Word are the operands; the range of R52 is what the immediate needs. -/
theorem decodeOfEncodeIsTheInstruction : Obligations.DecodeOfEncodeIsTheInstruction := by
  intro i hwf
  cases i with
  | add rd rs1 rs2 | and rd rs1 rs2 | xor rd rs1 rs2 =>
    simp [decode, encode, Instr.opcode, opcode_encodeRRR, regs_encodeRRR]
  | decrement rd rs1 imm => exact decode_encode_decrement rd rs1 hwf
  | load rd imm => exact decode_encode_load rd hwf
  | halt | undefined6 | undefined7 | undefined8 | undefined9 | undefined10 | undefined11 | undefined12
  | undefined13 | undefined14 | undefined15 => rfl

/-! ## A field put back where it was extracted -/

/-- A field extracted and placed again is the Word with every other bit cleared. -/
theorem placed_extract (w : Word) (k n : Nat) :
    (w.extractLsb' k n).setWidth 16 <<< k = w &&& ((BitVec.allOnes n).setWidth 16 <<< k) := by
  ext i hi
  simp only [BitVec.getElem_shiftLeft, BitVec.getElem_and, BitVec.getElem_setWidth, BitVec.getLsbD_extractLsb',
    BitVec.getLsbD_allOnes]
  by_cases hk : i < k
  · simp [hk]
  · have hsum : k + (i - k) = i := by omega
    simp [hk, hsum, Bool.and_comm, BitVec.getLsbD_eq_getElem hi]

theorem opcode_placed (w : Word) : (opcode w).setWidth 16 <<< 12 = w &&& 0xF000#16 := placed_extract w 12 4

theorem destination_placed (w : Word) : (destination w).setWidth 16 <<< 9 = w &&& 0x0E00#16 := placed_extract w 9 3

theorem sourceReg1_placed (w : Word) : (sourceReg1 w).setWidth 16 <<< 6 = w &&& 0x01C0#16 := placed_extract w 6 3

theorem sourceReg2_placed (w : Word) : (sourceReg2 w).setWidth 16 = w &&& 0x0007#16 :=
  (BitVec.shiftLeft_zero _).symm.trans (placed_extract w 0 3)

/-! ## The encoder on the fields of a Word, shape by shape (R49, R60) -/

theorem encodeRRR_fields (w : Word) :
    encodeRRR (opcode w) (Reg.ofIndex (destination w)) (Reg.ofIndex (sourceReg1 w)) (Reg.ofIndex (sourceReg2 w)) =
      w &&& Shape.RRR.usedBits := by
  simp only [encodeRRR, index_ofIndex, opcode_placed, destination_placed, sourceReg1_placed,
    sourceReg2_placed, ← BitVec.and_or_distrib_left]
  rfl

theorem encodeRRI_fields (w : Word) :
    encodeRRI (opcode w) (Reg.ofIndex (destination w)) (Reg.ofIndex (sourceReg1 w)) (immediate w) =
      w &&& Shape.RRI.usedBits := by
  simp only [encodeRRI, index_ofIndex, opcode_placed, destination_placed, sourceReg1_placed, immediate_low_five,
    ← BitVec.and_or_distrib_left]
  rfl

theorem encodeRI_fields (w : Word) :
    encodeRI (opcode w) (Reg.ofIndex (destination w)) (immediate w) = w &&& Shape.RI.usedBits := by
  simp only [encodeRI, index_ofIndex, opcode_placed, destination_placed, immediate_low_five, ← BitVec.and_or_distrib_left]
  rfl

theorem encodeN_opcode (w : Word) : encodeN (opcode w) = w &&& Shape.N.usedBits := opcode_placed w

/-- The encoder puts the fields a Word's shape uses back where they were, and nothing else. -/
theorem encode_decode (w : Word) : encode (decode w) = w &&& (shapeOf (opcode w)).usedBits := by
  have hop := opcode_decode w
  unfold decode at hop ⊢
  split at hop
  case h_1 | h_3 | h_4 => rw [encode, hop, encodeRRR_fields, ← hop]; rfl
  case h_2 => rw [encode, hop, encodeRRI_fields, ← hop]; rfl
  case h_5 => rw [encode, hop, encodeRI_fields, ← hop]; rfl
  all_goals rw [encode, hop, encodeN_opcode, ← hop]; rfl

theorem wellFormed_decode (w : Word) : WellFormed (decode w) := by
  unfold decode
  split
  case h_2 | h_5 => exact immInRange_immediate w
  all_goals rfl

/-- Settles O7: decoding keeps the opcode, which is bits 15..12, and extends the immediate it reads. -/
theorem decodeChoosesByOpcode : Obligations.DecodeChoosesByOpcode := fun w =>
  ⟨opcode_decode w, by rw [opcode_decode, encodeN, opcode_placed], wellFormed_decode w⟩

/-- Settles O10: the fields do not overlap, so their disjunction is their sum. -/
theorem canonicalEncodingIsTheSumOfItsFields : Obligations.CanonicalEncodingIsTheSumOfItsFields :=
  fun op rd rs1 rs2 imm =>
    ⟨toNat_encodeRRR op rd rs1 rs2, toNat_encodeRRI op rd rs1 imm, toNat_encodeRI op rd imm, toNat_encodeN op⟩

/-- Settles O11: the encoder puts back the fields the decoder read; a line of opcode 6..15 is the Word itself. -/
theorem encodeOfDecodeIsTheCanonicalWord : Obligations.EncodeOfDecodeIsTheCanonicalWord := by
  intro w
  refine ⟨encode_decode w, ?_⟩
  unfold disassemble
  split
  · exact encode_decode w
  · rfl

/-- Every shape uses the opcode's bits. -/
theorem opcode_and_usedBits (w : Word) (sh : Shape) : opcode (w &&& sh.usedBits) = opcode w := by
  have hmask : opcode sh.usedBits = BitVec.allOnes 4 := by cases sh <;> rfl
  rw [opcode, BitVec.extractLsb'_and]
  exact (congrArg (opcode w &&& ·) hmask).trans BitVec.and_allOnes

/-- Decoding reads the used bits alone: the canonical Word of `w` is another Word for the same instruction. -/
theorem decode_and_usedBits (w : Word) : decode (w &&& (shapeOf (opcode w)).usedBits) = decode w := by
  rw [← encode_decode, decodeOfEncodeIsTheInstruction _ (wellFormed_decode w)]

/-- Settles O8: both Words have the opcode of the first, so the same shape and the same canonical Word. -/
theorem ignoredBitsDoNotMatter : Obligations.IgnoredBitsDoNotMatter := by
  intro w v h
  have hop : opcode w = opcode v := by
    rw [← opcode_and_usedBits w, h, opcode_and_usedBits]
  calc decode w = decode (w &&& (shapeOf (opcode w)).usedBits) := (decode_and_usedBits w).symm
    _ = decode (v &&& (shapeOf (opcode v)).usedBits) := by rw [h, hop]
    _ = decode v := decode_and_usedBits v

end Sys2Proof.Encoding
end

section
/-! PROOFS. The decoder obligations (40_decoder.md sections 1 and 2): the sign extender bit by bit and as a number, the
field functions as shifts and masks, and the statements settled. -/

namespace Sys2Proof.Decoder

open Sys2Proof.Encoding

/-! ## The sign extender bit by bit (R65) -/

theorem getLsbD_lowMask (n k : Nat) : (lowMask n).getLsbD k = (decide (k < 16) && decide (k < n)) := by
  rw [lowMask, BitVec.getLsbD_ofNat, Nat.testBit_two_pow_sub_one]

/-- The fill of R65: ones from bit `n` to bit 15. -/
theorem getLsbD_fill (n k : Nat) :
    (0xFFFF#16 &&& ~~~ lowMask n).getLsbD k = (decide (k < 16) && decide (n ≤ k)) := by
  have hones : 0xFFFF#16 = BitVec.allOnes 16 := rfl
  rw [hones, BitVec.allOnes_and, BitVec.getLsbD_not, getLsbD_lowMask]
  by_cases hk : k < 16 <;> simp [hk, ← decide_not]

theorem getLsbD_sext (n : Nat) (v : BitVec n) {k : Nat} (hk : k < 16) :
    (sext n v).getLsbD k = if k < n then v.getLsbD k else v.getLsbD (n - 1) := by
  by_cases hsign : v.getLsbD (n - 1) = true
  · rw [sext, if_pos hsign, BitVec.getLsbD_or, BitVec.getLsbD_setWidth, getLsbD_fill, hsign]
    by_cases hkn : k < n
    · simp [hk, hkn, Nat.not_le_of_lt hkn]
    · simp [hk, hkn, Nat.le_of_not_lt hkn]
  · rw [sext, if_neg hsign, BitVec.getLsbD_setWidth]
    by_cases hkn : k < n
    · simp [hk, hkn]
    · simp [hkn, hsign, BitVec.getLsbD_of_ge v k (Nat.le_of_not_lt hkn)]

theorem sext_eq_signExtend (n : Nat) (v : BitVec n) : sext n v = v.signExtend 16 := by
  apply BitVec.eq_of_getLsbD_eq
  intro k hk
  rw [getLsbD_sext n v hk, BitVec.getLsbD_signExtend, BitVec.msb_eq_getLsbD_last, decide_eq_true hk, Bool.true_and]

theorem sext_of_sign_set {n : Nat} {v : BitVec n} (h : 2 ^ (n - 1) ≤ v.toNat) :
    sext n v = v.setWidth 16 ||| (0xFFFF#16 &&& ~~~ lowMask n) :=
  if_pos (by rw [BitVec.getLsbD_last, decide_eq_true h])

theorem sext_of_sign_clear {n : Nat} {v : BitVec n} (h : v.toNat < 2 ^ (n - 1)) : sext n v = v.setWidth 16 :=
  if_neg (by rw [BitVec.getLsbD_last]; simpa using h)

/-- Settles O4: the fill is 0xFFE0 at width 5, and at width 16 no bit is left to fill. -/
theorem signExtensionFillsToBitFifteen : Obligations.SignExtensionFillsToBitFifteen := by
  refine ⟨fun n v k _ _ hk => getLsbD_sext n v hk, fun v => ⟨fun h => ?_, fun h => ?_⟩, fun v => ?_⟩
  · exact sext_of_sign_set h
  · exact sext_of_sign_clear (Nat.lt_succ_of_le h)
  · rw [sext_eq_signExtend, BitVec.signExtend_eq]

/-! ## The sign extender as a number (R11, R64) -/

/-- The signed reading of R11 is the two's-complement one. -/
theorem signed_eq_toInt (w : Word) : signed w = w.toInt := by
  rw [signed, BitVec.toInt_eq_toNat_cond]
  split <;> split <;> omega

/-- Settles O3: sign extension to a width that is no smaller keeps the two's-complement value. -/
theorem signExtensionKeepsTheSignedValue : Obligations.SignExtensionKeepsTheSignedValue := by
  intro n v hpos hle
  have hhalf : 2 ^ (n - 1) * 2 = 2 ^ n := Nat.two_pow_pred_mul_two hpos
  have hsign : 2 * v.toNat < 2 ^ n ↔ v.toNat < 2 ^ (n - 1) := by omega
  rw [signed_eq_toInt, sext_eq_signExtend, BitVec.toInt_signExtend_of_le hle, BitVec.toInt_eq_toNat_cond]
  simp only [hsign, Nat.cast_pow, Nat.cast_ofNat]

/-! ## The field functions (R68 to R72) -/

/-- The field of `n` bits at bit `k` is a shift and a mask of `n` ones. -/
theorem toNat_extract_eq_shift_mask (w : Word) (k n : Nat) :
    (w.extractLsb' k n).toNat = (w.toNat >>> k) &&& (2 ^ n - 1) := by
  rw [BitVec.extractLsb'_toNat, Nat.and_two_pow_sub_one_eq_mod]

/-- Settles O5: each extractor is one field at its own bit and width. -/
theorem fieldsAreShiftAndMask : Obligations.FieldsAreShiftAndMask := fun w =>
  ⟨toNat_extract_eq_shift_mask w 12 4, toNat_extract_eq_shift_mask w 9 3, toNat_extract_eq_shift_mask w 6 3,
    toNat_extract_eq_shift_mask w 0 3⟩

/-- Settles O6: the extender keeps the value of the low five bits, and an immediate in range is its own extension. -/
theorem immediateIsTheSignedLowFiveBits : Obligations.ImmediateIsTheSignedLowFiveBits := by
  intro w
  have hvalue := signExtensionKeepsTheSignedValue 5 (imm5 w) (by decide) (by decide)
  rw [toNat_imm5] at hvalue
  exact ⟨hvalue, immInRange_immediate w, immediate_eq_self (immInRange_immediate w)⟩

end Sys2Proof.Decoder
end

section
/-! PROOFS. The arithmetic and logic obligations (41_arith_logic.md): what each of the four handlers answers, the frame
and the trace result they share, the Words that decode to them, and the statements settled. -/

namespace Sys2Proof.ArithLogic

open Sys2Proof.Machine Sys2Proof.Safety Sys2Proof.Decoder

/-! ## The four handlers, each said once (R75 to R78) -/

theorem exec_add (rd rs1 rs2 : Reg) (s : State) :
    exec (.add rd rs1 rs2) s = .next (writeReg s rd (readReg s rs1 + readReg s rs2)) := rfl

theorem exec_decrement (rd rs1 : Reg) (imm : Word) (s : State) :
    exec (.decrement rd rs1 imm) s = .next (writeReg s rd (readReg s rs1 - imm)) := rfl

theorem exec_and (rd rs1 rs2 : Reg) (s : State) :
    exec (.and rd rs1 rs2) s = .next (writeReg s rd (readReg s rs1 &&& readReg s rs2)) := rfl

theorem exec_xor (rd rs1 rs2 : Reg) (s : State) :
    exec (.xor rd rs1 rs2) s = .next (writeReg s rd (readReg s rs1 ^^^ readReg s rs2)) := rfl

/-! ## What a handler that writes its result has in common with the others (R74) -/

theorem onlyWritesReg_writeReg (rd : Reg) (v : Word) (s : State) : OnlyWritesReg rd s (writeReg s rd v) :=
  ⟨fun _ h => readReg_writeReg_other s v h, writeReg_pc s rd v, writeReg_run s rd v, memRead_writeReg s rd v⟩

/-- R74 for an instruction that writes `v` and returns it: the destination holds `v`, nothing else changes, and the
trace shows the destination. -/
theorem exec_writes_its_result {i : Instr} {rd : Reg} {v : Word} {s : State}
    (hexec : exec i s = .next (writeReg s rd v)) (hresult : handlerResult i s = some v) :
    ∃ t, exec i s = .next t ∧ readReg t rd = v ∧ OnlyWritesReg rd s t ∧
      (traceOf i s).result = some (readReg t rd) := by
  have hread := readReg_writeReg_same s rd v
  exact ⟨_, hexec, hread, onlyWritesReg_writeReg rd v s, hread.symm ▸ hresult⟩

/-! ## The Words of opcodes 0 to 3 (R54) -/

theorem decode_of_opcode_zero {w : Word} (h : opcode w = 0#4) :
    decode w = .add (Reg.ofIndex (destination w)) (Reg.ofIndex (sourceReg1 w)) (Reg.ofIndex (sourceReg2 w)) := by
  rw [decode, h]; rfl

theorem decode_of_opcode_one {w : Word} (h : opcode w = 1#4) :
    decode w = .decrement (Reg.ofIndex (destination w)) (Reg.ofIndex (sourceReg1 w)) (immediate w) := by
  rw [decode, h]; rfl

theorem decode_of_opcode_two {w : Word} (h : opcode w = 2#4) :
    decode w = .and (Reg.ofIndex (destination w)) (Reg.ofIndex (sourceReg1 w)) (Reg.ofIndex (sourceReg2 w)) := by
  rw [decode, h]; rfl

theorem decode_of_opcode_three {w : Word} (h : opcode w = 3#4) :
    decode w = .xor (Reg.ofIndex (destination w)) (Reg.ofIndex (sourceReg1 w)) (Reg.ofIndex (sourceReg2 w)) := by
  rw [decode, h]; rfl

/-! ## The results as numbers (R75, R76, R79) -/

/-- Subtraction of Words wraps as R76's `(a - b) mod 65536`, a difference of integers. -/
theorem toNat_sub_eq_emod (a b : Word) : ((a - b).toNat : Int) = ((a.toNat : Int) - (b.toNat : Int)) % 65536 := by
  rw [BitVec.toNat_sub]
  omega

/-- A balanced remainder differs from its number by a multiple of the modulus. -/
theorem bmod_sub_self_emod (x : Int) (m : Nat) : (x.bmod m - x) % (m : Int) = 0 :=
  Int.emod_eq_emod_iff_emod_sub_eq_zero.mp Int.bmod_emod

theorem signed_add_congruent (a b : Word) : (signed (a + b) - (signed a + signed b)) % 65536 = 0 := by
  simp only [signed_eq_toInt, BitVec.toInt_add]
  exact bmod_sub_self_emod _ (2 ^ 16)

theorem signed_sub_congruent (a b : Word) : (signed (a - b) - (signed a - signed b)) % 65536 = 0 := by
  simp only [signed_eq_toInt, BitVec.toInt_sub]
  exact bmod_sub_self_emod _ (2 ^ 16)

/-! ## The statements settled -/

/-- Settles O13: add writes the sum of two Words, which wraps. -/
theorem addWritesTheWrappedSum : Obligations.AddWritesTheWrappedSum := by
  refine ⟨fun rd rs1 rs2 s => ?_, fun w => decode_of_opcode_zero⟩
  obtain ⟨t, hexec, hread, hframe, htrace⟩ := exec_writes_its_result (exec_add rd rs1 rs2 s) rfl
  exact ⟨t, hexec, by rw [hread]; exact BitVec.toNat_add _ _, hframe, htrace, rfl⟩

/-- Settles O14: decrement writes the difference of two Words, which wraps. -/
theorem decrementWritesTheWrappedDifference : Obligations.DecrementWritesTheWrappedDifference := by
  refine ⟨fun rd rs1 imm s => ?_, fun w => decode_of_opcode_one⟩
  obtain ⟨t, hexec, hread, hframe, htrace⟩ := exec_writes_its_result (exec_decrement rd rs1 imm s) rfl
  exact ⟨t, hexec, by rw [hread]; exact toNat_sub_eq_emod _ _, hframe, htrace, rfl⟩

/-- Settles O15: a bit of the AND of two Words is the AND of their bits. -/
theorem andWritesTheBitwiseAnd : Obligations.AndWritesTheBitwiseAnd := by
  refine ⟨fun rd rs1 rs2 s => ?_, fun w => decode_of_opcode_two⟩
  obtain ⟨t, hexec, hread, hframe, htrace⟩ := exec_writes_its_result (exec_and rd rs1 rs2 s) rfl
  exact ⟨t, hexec, fun k _ => by rw [hread, BitVec.getLsbD_and], hframe, htrace, rfl⟩

/-- Settles O16: a bit of the XOR of two Words is the XOR of their bits. -/
theorem xorWritesTheBitwiseXor : Obligations.XorWritesTheBitwiseXor := by
  refine ⟨fun rd rs1 rs2 s => ?_, fun w => decode_of_opcode_three⟩
  obtain ⟨t, hexec, hread, hframe, htrace⟩ := exec_writes_its_result (exec_xor rd rs1 rs2 s) rfl
  exact ⟨t, hexec, fun k _ => by rw [hread, BitVec.getLsbD_xor], hframe, htrace, rfl⟩

/-- Settles O20: the sum and the difference of Words have the signed reading's value up to a multiple of 65536. -/
theorem arithmeticIsSignAgnostic : Obligations.ArithmeticIsSignAgnostic := by
  intro rd rs1 rs2 imm s
  refine ⟨⟨_, exec_add rd rs1 rs2 s, ?_⟩, ⟨_, exec_decrement rd rs1 imm s, ?_⟩⟩
  · rw [readReg_writeReg_same, signed_add_congruent]
  · rw [readReg_writeReg_same, signed_sub_congruent]

/-- Settles O21: each identity is a law of Words about the result the handler writes, whichever registers coincide. -/
theorem arithmeticIdentities : Obligations.ArithmeticIdentities := by
  intro rd rs rs2 k s
  refine ⟨⟨_, _, exec_decrement rd rs k s, exec_decrement rd rd (-k) _, ?restored⟩,
    ⟨_, exec_add rd rs rs2 s, ?commuted⟩, ⟨_, exec_xor rd rs rs s, ?zero⟩, ⟨_, exec_and rd rs rs s, ?copied⟩⟩
  case restored =>
    simp only [readReg_writeReg_same]
    calc readReg s rs - k - -k = readReg s rs - k + k := sub_neg_eq_add _ _
      _ = readReg s rs := BitVec.sub_add_cancel _ _
  case commuted => rw [exec_add, BitVec.add_comm]
  case zero => rw [readReg_writeReg_same, BitVec.xor_self]
  case copied => rw [readReg_writeReg_same, BitVec.and_self]

end Sys2Proof.ArithLogic
end

section
/-! PROOFS. The load-immediate obligation (42_load_immediate.md): what the handler of load answers, the Words that decode
to load, and the statement settled. -/

namespace Sys2Proof.LoadImmediate

open Sys2Proof.Machine Sys2Proof.ArithLogic

theorem exec_load (rd : Reg) (imm : Word) (s : State) : exec (.load rd imm) s = .next (writeReg s rd imm) := rfl

theorem decode_of_opcode_four {w : Word} (h : opcode w = 4#4) :
    decode w = .load (Reg.ofIndex (destination w)) (immediate w) := by
  rw [decode, h]; rfl

/-- Settles O17: load writes the immediate as it stands, and the decoder's immediate is the low five bits extended. -/
theorem loadWritesTheImmediate : Obligations.LoadWritesTheImmediate := by
  refine ⟨fun rd imm s => ?_, fun w => decode_of_opcode_four⟩
  obtain ⟨t, hexec, hread, hframe, htrace⟩ := exec_writes_its_result (exec_load rd imm s) rfl
  exact ⟨t, hexec, hread, hframe, hread ▸ htrace, rfl⟩

end Sys2Proof.LoadImmediate
end

section
/-! PROOFS. The halt and undefined-opcode obligations (43_halt_undefined.md): the handler of halt, the no-op of opcodes
6 to 15, what a transaction does to a halted core, and the statements settled. -/

namespace Sys2Proof.HaltUndefined

open Sys2Proof.Machine Sys2Proof.Safety

/-! ## A halted core and its host (R83) -/

@[simp] theorem loadWord_regs (go : Bool) (a v : Word) (s : State) : (loadWord go a v s).regs = s.regs := by
  cases go <;> rfl

@[simp] theorem loadWord_pc (go : Bool) (a v : Word) (s : State) : (loadWord go a v s).pc = s.pc := by
  cases go <;> rfl

@[simp] theorem loadWord_run (go : Bool) (a v : Word) (s : State) : (loadWord go a v s).run = s.run := by
  cases go <;> rfl

/-- With RUN false there is no step to enable, whatever `go` (R88). -/
theorem stepWhen_of_halted {s : State} (h : Halted s) (go : Bool) : stepWhen go s = .next s := by
  cases go with
  | false => rfl
  | true => exact step_of_halted h

theorem transact_step_of_halted {x : HostSystem} (h : Halted x.core) : transact .step x = .next x := by
  rw [transact, stepWhen_of_halted h, andThen_next]

/-- Settles O40: a load writes memory alone, a step of a halted core is none, and the other two leave the core alone. -/
theorem onlyResetLeavesHalted : Obligations.OnlyResetLeavesHalted := by
  intro tx x hx hne
  cases tx with
  | reset => exact absurd rfl hne
  | loadWord a v =>
    exact ⟨_, rfl, (loadWord_run x.go a v x.core).trans hx, loadWord_regs x.go a v x.core, loadWord_pc x.go a v x.core⟩
  | observe => exact ⟨x, rfl, hx, rfl, rfl⟩
  | setGo b => exact ⟨_, rfl, hx, rfl, rfl⟩
  | step => exact ⟨x, transact_step_of_halted hx, hx, rfl, rfl⟩

/-! ## halt (R82) -/

theorem exec_halt (s : State) : exec .halt s = .next (clearRun s) := rfl

theorem decode_of_opcode_five {w : Word} (h : opcode w = 5#4) : decode w = .halt := by
  rw [decode, h]; rfl

/-- The step that halts: PC was advanced before the handler cleared RUN (R83). -/
theorem step_of_opcode_five {s : State} (hs : Running s) (h : opcode (fetch s) = 5#4) :
    step s = .next (clearRun (advancePc s)) := by
  rw [step_of_running hs, fetchInstr, decode_of_opcode_five h, exec_halt]

/-- Settles O18: the handler clears RUN and no other field, on the state whose PC the step has advanced. -/
theorem haltClearsOnlyTheRunningFlag : Obligations.HaltClearsOnlyTheRunningFlag := by
  refine ⟨fun s => ?handler, fun w => decode_of_opcode_five, rfl, fun s hs hop => ?step⟩
  case handler =>
    exact ⟨_, exec_halt s, clearRun_run s, readReg_clearRun s, clearRun_pc s, memRead_clearRun s, rfl⟩
  case step =>
    refine ⟨_, step_of_opcode_five hs hop, clearRun_run _, advancePc_pc s, fun r => ?_, fun a => ?_⟩
    · rw [readReg_clearRun, readReg_advancePc]
    · rw [memRead_clearRun, memRead_advancePc]

/-! ## The undefined opcodes (R84, R85) -/

/-- The ten undefined instructions are those of opcode 6 to 15 (R55). -/
theorem mem_undefinedInstrs_iff (i : Instr) : i ∈ undefinedInstrs ↔ 6 ≤ i.opcode.toNat := by
  cases i <;> simp [undefinedInstrs, Instr.opcode]

theorem exec_of_undefined {i : Instr} (h : 6 ≤ i.opcode.toNat) (s : State) : exec i s = .next s := by
  obtain ⟨_, _, hle, -⟩ | ⟨rfl, -⟩ | ⟨-, hexec⟩ := exec_cases i s
  · omega
  · exact absurd h (by decide)
  · exact hexec

/-- The undefined opcodes alone have no handler to return a Word (D8 in R85). -/
theorem handlerResult_eq_none_iff (i : Instr) (s : State) : handlerResult i s = none ↔ 6 ≤ i.opcode.toNat := by
  cases i <;> simp [handlerResult, Instr.opcode]

theorem traceOf_of_undefined {i : Instr} (h : 6 ≤ i.opcode.toNat) (s : State) :
    traceOf i s = { opcode := i.opcode, result := none, undef := true } := by
  rw [traceOf, (handlerResult_eq_none_iff i s).2 h, decide_eq_true h]

theorem decode_mem_undefinedInstrs {w : Word} (h : 6 ≤ (opcode w).toNat) : decode w ∈ undefinedInstrs := by
  rwa [mem_undefinedInstrs_iff, opcode_decode]

theorem step_of_undefined {s : State} (hs : Running s) (h : 6 ≤ (opcode (fetch s)).toNat) :
    step s = .next (advancePc s) := by
  rw [← opcode_decode] at h
  rw [step_of_running hs, fetchInstr, exec_of_undefined h]

/-- Settles O19: the ten are told by their opcode, whose dispatch answers the state it was given, PC advanced already. -/
theorem undefinedOpcodesAreNoOps : Obligations.UndefinedOpcodesAreNoOps := by
  refine ⟨fun i hi s => ?_, fun w => decode_mem_undefinedInstrs, fun s => step_of_undefined⟩
  have hop : 6 ≤ i.opcode.toNat := (mem_undefinedInstrs_iff i).1 hi
  exact ⟨exec_of_undefined hop s, traceOf_of_undefined hop s⟩

end Sys2Proof.HaltUndefined
end

section
/-! PROOFS. The step obligations of the execution loop (44_execution_loop.md sections 2 and 4): the step of a running
machine by the class of the fetched opcode, its trace record, the step that does not happen, and the statements
settled. -/

namespace Sys2Proof.ExecutionLoop

open Sys2Proof.Machine Sys2Proof.Safety Sys2Proof.ArithLogic Sys2Proof.LoadImmediate Sys2Proof.HaltUndefined

/-! ## Fetch, advance, decode, dispatch (R87) -/

/-- The step through the instruction the fetched Word decodes to. -/
theorem step_of_decode {s : State} {i : Instr} (hs : Running s) (hi : decode (fetch s) = i) :
    step s = exec i (advancePc s) := by
  rw [step_of_running hs, fetchInstr, hi]

theorem stepTrace_of_running {s : State} (hs : Running s) :
    stepTrace s = some (traceOf (decode (fetch s)) (advancePc s)) :=
  if_pos hs

theorem stepTrace_of_halted {s : State} (hs : Halted s) : stepTrace s = none :=
  if_neg (Bool.eq_false_iff.1 hs)

/-- Settles O23: the Word at PC is the one fetched, and advancing PC writes no other field. -/
theorem stepRunsTheDecodedInstruction : Obligations.StepRunsTheDecodedInstruction := by
  rintro s i hs rfl
  exact ⟨step_of_decode hs rfl, stepTrace_of_running hs, BitVec.toNat_add _ _, advancePc_regs s, advancePc_run s,
    advancePc_mem s⟩

/-- Settles O28: a halted state has no step, and without `go` none is taken. -/
theorem noStepWhenHaltedOrDisabled : Obligations.NoStepWhenHaltedOrDisabled := fun _ go =>
  ⟨fun hs => ⟨step_of_halted hs, stepWhen_of_halted hs go, stepTrace_of_halted hs⟩, rfl⟩

/-! ## The three classes of opcode -/

theorem opcode_class (w : Word) : (opcode w).toNat ≤ 4 ∨ opcode w = 5#4 ∨ 6 ≤ (opcode w).toNat := by
  bv_omega

/-- Opcodes 0..4 write what they return into the register their destination field names (R74, R80). -/
theorem exec_decode_of_opcode_le_four {w : Word} (h : (opcode w).toNat ≤ 4) (s : State) :
    ∃ v, handlerResult (decode w) s = some v ∧
      exec (decode w) s = .next (writeReg s (Reg.ofIndex (destination w)) v) := by
  obtain h | h | h | h | h :
      opcode w = 0#4 ∨ opcode w = 1#4 ∨ opcode w = 2#4 ∨ opcode w = 3#4 ∨ opcode w = 4#4 := by bv_omega
  · rw [decode_of_opcode_zero h]; exact ⟨_, rfl, rfl⟩
  · rw [decode_of_opcode_one h]; exact ⟨_, rfl, rfl⟩
  · rw [decode_of_opcode_two h]; exact ⟨_, rfl, rfl⟩
  · rw [decode_of_opcode_three h]; exact ⟨_, rfl, rfl⟩
  · rw [decode_of_opcode_four h]; exact ⟨_, rfl, rfl⟩

/-- The step of a fetched Word of opcode 0..4, with the Word its trace record shows. -/
theorem step_of_opcode_le_four {s : State} (hs : Running s) (h : (opcode (fetch s)).toNat ≤ 4) :
    ∃ v, handlerResult (decode (fetch s)) (advancePc s) = some v ∧
      step s = .next (writeReg (advancePc s) (Reg.ofIndex (destination (fetch s))) v) := by
  obtain ⟨v, hresult, hexec⟩ := exec_decode_of_opcode_le_four h (advancePc s)
  exact ⟨v, hresult, (step_of_decode hs rfl).trans hexec⟩

/-- Settles O25: in each class of opcode the step is PC's advance and at most one write more. -/
theorem stepWritesPcAndAtMostOneOther : Obligations.StepWritesPcAndAtMostOneOther := by
  intro s hs
  obtain hop | hop | hop := opcode_class (fetch s)
  · obtain ⟨v, -, hstep⟩ := step_of_opcode_le_four hs hop
    refine ⟨_, hstep, rfl, fun _ => rfl, fun _ => ⟨hs, fun r hr => ?_⟩, fun h5 => absurd h5 (by bv_omega),
      fun h6 => absurd h6 (by bv_omega)⟩
    rw [readReg_writeReg_other _ v hr, readReg_advancePc]
  · refine ⟨_, step_of_opcode_five hs hop, rfl, fun _ => rfl, fun h4 => absurd h4 (by bv_omega),
      fun _ => ⟨rfl, fun r => ?_⟩, fun h6 => absurd h6 (by bv_omega)⟩
    rw [readReg_clearRun, readReg_advancePc]
  · exact ⟨_, step_of_undefined hs hop, rfl, fun _ => rfl, fun h4 => absurd h4 (by bv_omega),
      fun h5 => absurd h5 (by bv_omega), fun _ => ⟨hs, readReg_advancePc s⟩⟩

/-- Settles O30: the record is that of the decoded instruction, whose result the step has just written. -/
theorem traceRecordMatchesTheStep : Obligations.TraceRecordMatchesTheStep := by
  intro s hs
  obtain ⟨t, hstep, -⟩ := step_frame hs
  refine ⟨t, _, hstep, stepTrace_of_running hs, opcode_decode _, ?undef, fun h4 => ?written, fun h5 => ?five,
    fun h6 => ?absent⟩
  case undef => simp only [traceOf, opcode_decode, decide_eq_true_eq]
  case written =>
    obtain ⟨v, hresult, hstep'⟩ := step_of_opcode_le_four hs h4
    obtain rfl := Host.Outcome.next.inj (hstep.symm.trans hstep')
    rw [readReg_writeReg_same]
    exact hresult
  case five => rw [decode_of_opcode_five h5]; rfl
  case absent => rwa [traceOf, handlerResult_eq_none_iff, opcode_decode]

/-! ## The result from the bits of the fetched Word -/

/-- The destination after a step whose handler writes `v` there. -/
theorem readReg_of_step_writes {s t : State} {i : Instr} {rd : Reg} {v : Word} (hs : Running s)
    (hstep : step s = .next t) (hi : decode (fetch s) = i)
    (hexec : exec i (advancePc s) = .next (writeReg (advancePc s) rd v)) : readReg t rd = v := by
  obtain rfl := Host.Outcome.next.inj (hstep.symm.trans ((step_of_decode hs hi).trans hexec))
  exact readReg_writeReg_same _ rd v

/-- Settles O26: each opcode's handler writes its operation on the registers, which advancing PC has left alone. -/
theorem fetchedWordDecidesTheResult : Obligations.FetchedWordDecidesTheResult := by
  intro s hs
  obtain ⟨t, hstep, -⟩ := step_frame hs
  refine ⟨t, hstep, fun h => ?_, fun h => ?_, fun h => ?_, fun h => ?_, fun h => ?_⟩
  · simpa only [readReg_advancePc] using readReg_of_step_writes hs hstep (decode_of_opcode_zero h) (exec_add ..)
  · simpa only [readReg_advancePc, immediate] using
      readReg_of_step_writes hs hstep (decode_of_opcode_one h) (exec_decrement ..)
  · simpa only [readReg_advancePc] using readReg_of_step_writes hs hstep (decode_of_opcode_two h) (exec_and ..)
  · simpa only [readReg_advancePc] using readReg_of_step_writes hs hstep (decode_of_opcode_three h) (exec_xor ..)
  · exact readReg_of_step_writes hs hstep (decode_of_opcode_four h) (exec_load ..)

/-! ## The Word placed for the next fetch (log entry 5) -/

theorem ofNat_toNat_mod (w : Word) : BitVec.ofNat 16 (w.toNat % 2 ^ 16) = w := by
  rw [Nat.mod_eq_of_lt w.isLt, BitVec.ofNat_toNat, BitVec.setWidth_eq]

theorem decodeTableWord_toNat (w : Word) : decodeTableWord 16 w.toNat = some (decode w) :=
  congrArg (fun v => some (decode v)) (ofNat_toNat_mod w)

theorem withFetchWord_toNat (s : State) (w : Word) : s.withFetchWord 16 w.toNat = placeForFetch s w :=
  congrArg (placeForFetch s) (ofNat_toNat_mod w)

theorem fetch_placeForFetch {s : State} (hs : MemoryCanonical s) (w : Word) : fetch (placeForFetch s w) = w :=
  (Memory.readWord_writeWord hs s.pc w s.pc).trans (if_pos rfl)

/-- Settles O35: the placed Word is what is read at PC, and RUN is set. -/
theorem placedWordIsTheNextInstruction : Obligations.PlacedWordIsTheNextInstruction := by
  intro s w hs
  rw [withFetchWord_toNat]
  exact ⟨decodeTableWord_toNat w,
    step_of_decode (placeForFetch_run s w) (congrArg decode (fetch_placeForFetch hs w))⟩

end Sys2Proof.ExecutionLoop
end

section
/-! PROOFS. The run obligations of the execution loop (44_execution_loop.md sections 2 and 3): a run steps along the
fetch order until the first halt Word, the Loader's last Word is such a one, the loop under fuel, and the statements
settled. -/

namespace Sys2Proof.ExecutionLoop

open Sys2Proof.Machine Sys2Proof.Safety

/-! ## A run along the fetch order (R91) -/

theorem fetchAddr_succ (s : State) (k : Nat) : fetchAddr s (k + 1) = fetchAddr s k + 1#16 := by
  rw [fetchAddr, fetchAddr, BitVec.ofNat_add, BitVec.add_assoc]

/-- A run's last step, where `runSteps_succ` has its first. -/
theorem runSteps_succ_last {k : Nat} {s t : State} (h : runSteps k s = .next t) : runSteps (k + 1) s = step t := by
  induction k generalizing s with
  | zero =>
    obtain rfl := Host.Outcome.next.inj h
    obtain ⟨u, hstep, -⟩ := step_keeps_mem s
    rw [runSteps_succ hstep, runSteps_zero, hstep]
  | succ k ih =>
    obtain ⟨u, hstep, -⟩ := step_keeps_mem s
    rw [runSteps_succ hstep] at h ⊢
    exact ih h

/-- The machine after `k` steps of the run from `s` that has met no halt Word yet. -/
structure UnderWay (s : State) (k : Nat) (t : State) : Prop where
  steps : runSteps k s = .next t
  running : Running t
  pc : t.pc = fetchAddr s k
  mem : t.mem = s.mem

/-- The next step of a run under way advances PC, and halts exactly at a halt Word of the memory it began with. -/
theorem UnderWay.next {s t : State} {k : Nat} (h : UnderWay s k t) :
    ∃ u, runSteps (k + 1) s = .next u ∧ u.pc = fetchAddr s (k + 1) ∧ u.mem = s.mem ∧
      u.run = decide (¬ HaltsAt s (fetchAddr s k)) := by
  obtain ⟨u, hstep, hpc, hmem, hrun⟩ := step_frame h.running
  refine ⟨u, (runSteps_succ_last h.steps).trans hstep, ?_, hmem.trans h.mem, ?_⟩
  · rw [hpc, h.pc, fetchAddr_succ]
  · rw [hrun, fetch, memRead_of_mem h.mem, h.pc]

/-- The invariant of a run: it is under way as long as no address it has fetched from holds a halt Word. -/
theorem exists_underWay {s : State} (hs : Running s) (k : Nat)
    (hno : ∀ j < k, ¬ HaltsAt s (fetchAddr s j)) : ∃ t, UnderWay s k t := by
  induction k with
  | zero => exact ⟨s, runSteps_zero s, hs, (BitVec.add_zero _).symm, rfl⟩
  | succ k ih =>
    obtain ⟨t, ht⟩ := ih fun j hj => hno j (Nat.lt_succ_of_lt hj)
    obtain ⟨u, hsteps, hpc, hmem, hrun⟩ := ht.next
    exact ⟨u, hsteps, hrun.trans (decide_eq_true (hno k (Nat.lt_succ_self k))), hpc, hmem⟩

/-- The run's end: one step past the first halt Word in fetch order. -/
theorem run_halts_at_first {s : State} {h : Nat} (hs : Running s) (hhalt : HaltsAt s (fetchAddr s h))
    (hno : ∀ j < h, ¬ HaltsAt s (fetchAddr s j)) :
    ∃ t, runSteps (h + 1) s = .next t ∧ Halted t ∧ t.pc = fetchAddr s (h + 1) ∧ SameMemory s t := by
  obtain ⟨t, ht⟩ := exists_underWay hs h hno
  obtain ⟨u, hsteps, hpc, hmem, hrun⟩ := ht.next
  exact ⟨u, hsteps, hrun.trans (decide_eq_false (not_not_intro hhalt)), hpc, memRead_of_mem hmem⟩

/-- Settles O36: the run is under way up to the first halt Word and ends there. -/
theorem runEndsAtTheFirstHaltWord : Obligations.RunEndsAtTheFirstHaltWord := by
  intro s h hs hhalt hno
  refine ⟨fun k hk => ?_, run_halts_at_first hs hhalt hno⟩
  obtain ⟨t, ht⟩ := exists_underWay hs k fun j hj => hno j (hj.trans_le hk)
  exact ⟨t, ht.steps, ht.running, ht.pc⟩

/-- Settles O37: with no halt Word in memory the run is under way after every number of steps. -/
theorem withoutHaltWordTheRunNeverEnds : Obligations.WithoutHaltWordTheRunNeverEnds := by
  intro s hs hno k
  obtain ⟨t, ht⟩ := exists_underWay hs k fun j _ => hno (fetchAddr s j)
  exact ⟨t, ht.steps, ht.running, ht.pc⟩

/-! ## The Loader's last Word halts (R92, R103) -/

theorem not_loadFails_of_length_lt {img : List Word} (hlen : img.length < 65536) :
    ¬ loadFails (.words img) = true :=
  mt (loadFails_words img).1 hlen.not_ge

theorem imageWrites_append (k : Nat) (img rest : List Word) :
    imageWrites k (img ++ rest) = imageWrites k img ++ imageWrites (k + img.length) rest := by
  induction img generalizing k with
  | nil => rfl
  | cons w img ih =>
    have hk : k + 1 + img.length = k + (img.length + 1) := by omega
    simp only [List.cons_append, imageWrites, ih, List.length_cons, hk]

/-- An image that needs no halt Word ends in one. -/
theorem eq_append_haltWord_of_needsHalt_eq_false {img : List Word} (h : needsHalt img = false) :
    ∃ init, img = init ++ [Config.haltWord] := by
  unfold needsHalt at h
  split at h
  · cases h
  next w hlast =>
    obtain rfl : w = Config.haltWord := by simpa using h
    exact List.getLast?_eq_some_iff.1 hlast

/-- The last `LOAD_WORD` of a load writes the halt word, at address `N` or, for an image that ends in it, `N - 1`. -/
theorem loaderWrites_last {img : List Word} (hlen : img.length < 65536) :
    ∃ l h, h ≤ img.length ∧ loaderWrites (.words img) = l ++ [(BitVec.ofNat 16 h, Config.haltWord)] := by
  rw [loaderWrites, if_neg (not_loadFails_of_length_lt hlen), Image.read, haltWrites]
  cases hneeds : needsHalt img with
  | true => exact ⟨imageWrites 0 img, img.length, le_rfl, rfl⟩
  | false =>
    obtain ⟨init, rfl⟩ := eq_append_haltWord_of_needsHalt_eq_false hneeds
    refine ⟨imageWrites 0 init, init.length, by simp, ?_⟩
    simp [imageWrites_append, imageWrites]

/-- The last of several `LOAD_WORD`s is what its address reads. -/
theorem memRead_applyLoads_last (l : List (Word × Word)) (a v : Word) {s : State} (hs : MemoryCanonical s) :
    memRead (applyLoads (l ++ [(a, v)]) s) a = v := by
  rw [applyLoads_append]
  exact (Memory.readWord_writeWord (applyLoads_wf l hs) a v a).trans (if_pos rfl)

/-- An accepted image's launch state holds a halt Word at an address up to `N`. -/
theorem launch_holds_haltWord {img : List Word} (hlen : img.length < 65536) (s : State) :
    ∃ u, launch (.words img) s = .launched u ∧ u.pc = 0#16 ∧ Running u ∧
      ∃ h ≤ img.length, HaltsAt u (BitVec.ofNat 16 h) := by
  obtain ⟨l, h, hle, hwrites⟩ := loaderWrites_last hlen
  refine ⟨_, by rw [launch_eq, if_neg (not_loadFails_of_length_lt hlen)], applyLoads_pc _ _, applyLoads_run _ _,
    h, hle, ?_⟩
  rw [HaltsAt, hwrites, memRead_applyLoads_last _ _ _ Memory.wf_reset]
  decide

/-- Settles O46: the first halt Word in fetch order from address 0 comes no later than the Loader's last Word. -/
theorem everyLoadedImageHalts : Obligations.EveryLoadedImageHalts := by
  intro img s hlen
  obtain ⟨u, hlaunch, hpc, hrun, n, hn, hhalt⟩ := launch_holds_haltWord hlen s
  have haddr (k : Nat) : fetchAddr u k = BitVec.ofNat 16 k := by rw [fetchAddr, hpc, BitVec.zero_add]
  have hex : ∃ h, HaltsAt u (fetchAddr u h) := ⟨n, (haddr n).symm ▸ hhalt⟩
  have hfirst : HaltsAt u (fetchAddr u (Nat.find hex)) := Nat.find_spec hex
  have hle : Nat.find hex ≤ n := Nat.find_min' hex ((haddr n).symm ▸ hhalt)
  obtain ⟨t, hsteps, hhalted, htpc, -⟩ := run_halts_at_first hrun hfirst fun _ => Nat.find_min hex
  rw [haddr] at hfirst htpc
  exact ⟨u, hlaunch, Nat.find hex, t, hle.trans hn, hfirst, hsteps, hhalted, htpc⟩

/-! ## The loop under fuel (R89) -/

theorem runSteps_of_halted {s : State} (h : Halted s) (k : Nat) : runSteps k s = .next s := by
  induction k with
  | zero => exact runSteps_zero s
  | succ k ih => rw [runSteps_succ (step_of_halted h), ih]

theorem runLoop_of_halted {s : State} (h : Halted s) (fuel : Nat) : runLoop fuel s = .next (.halted s) := by
  cases fuel <;> simp [runLoop, isRunning, h]

theorem runLoop_succ_of_running {s t : State} (h : Running s) (hstep : step s = .next t) (fuel : Nat) :
    runLoop (fuel + 1) s = runLoop fuel t := by
  simp [runLoop, isRunning, h, hstep]

/-- Settles O38, by induction on the fuel: a halted state ends loop and run alike, a running one steps in both. -/
theorem runLoopReportsHaltedExactly : Obligations.RunLoopReportsHaltedExactly := by
  intro fuel
  induction fuel with
  | zero => exact fun s => ⟨s, runSteps_zero s, by cases hs : s.run <;> simp [runLoop, isRunning, hs]⟩
  | succ fuel ih =>
    intro s
    cases hs : s.run with
    | false => exact ⟨s, runSteps_of_halted hs _, by rw [runLoop_of_halted hs, hs]; rfl⟩
    | true =>
      obtain ⟨u, hstep, -⟩ := step_frame hs
      rw [runSteps_succ hstep, runLoop_succ_of_running hs hstep]
      exact ih u

end Sys2Proof.ExecutionLoop
end

section
/-! PROOFS. The transaction obligations (50_host_interface.md sections 1 and 3): the canonical memory list under every
transaction, what is not enabled, the priority at one instant, and observation. -/

namespace Sys2Proof.HostInterface

open Sys2Proof.Machine Sys2Proof.Safety

theorem step_keeps_canonical {s t : State} (hs : MemoryCanonical s) (hstep : step s = .next t) : MemoryCanonical t := by
  obtain ⟨u, hu, hmem⟩ := step_keeps_mem s
  obtain rfl : t = u := Host.Outcome.next.inj (hstep.symm.trans hu)
  rwa [MemoryCanonical, hmem]

theorem stepWhen_keeps_canonical (go : Bool) {s : State} (hs : MemoryCanonical s) :
    ∃ t, stepWhen go s = .next t ∧ MemoryCanonical t := by
  cases go with
  | false => exact ⟨s, rfl, hs⟩
  | true =>
    obtain ⟨t, hstep, -⟩ := step_keeps_mem s
    exact ⟨t, hstep, step_keeps_canonical hs hstep⟩

theorem memWrite_keeps_canonical (a v : Word) {s : State} (hs : MemoryCanonical s) : MemoryCanonical (memWrite s a v) :=
  Memory.wf_writeWord a v hs

theorem loadWord_keeps_canonical (go : Bool) (a v : Word) {s : State} (hs : MemoryCanonical s) :
    MemoryCanonical (loadWord go a v s) := by
  cases go with
  | false => exact memWrite_keeps_canonical a v hs
  | true => exact hs

/-- Settles O32: only RESET and LOAD_WORD change the memory list, and both answer a canonical one. -/
theorem everyTransitionKeepsMemoryCanonical : Obligations.EveryTransitionKeepsMemoryCanonical := by
  refine ⟨fun _ _ => step_keeps_canonical, fun tx x y hx hy => ?_⟩
  cases tx with
  | reset => cases hy; exact Memory.wf_reset
  | loadWord a v => cases hy; exact loadWord_keeps_canonical x.go a v hx
  | observe => cases hy; exact hx
  | setGo b => cases hy; exact hx
  | step =>
    obtain ⟨t, hstep, ht⟩ := stepWhen_keeps_canonical x.go hx
    rw [transact, hstep, andThen_next] at hy
    cases hy
    exact ht

/-- Settles O39: a load is disabled by `go`, a step by `go` not asserted or by RUN false; the rest never are. -/
theorem disabledTransactionsChangeNothing : Obligations.DisabledTransactionsChangeNothing := by
  refine ⟨?_, fun x a v hgo => by simp [enabled, hgo]⟩
  rintro tx ⟨s, go⟩ hoff
  cases tx with
  | reset | observe | setGo => cases hoff
  | loadWord a v =>
    obtain rfl : go = true := by simpa [enabled] using hoff
    rfl
  | step =>
    cases go with
    | false => rfl
    | true => exact HaltUndefined.transact_step_of_halted (by simpa [enabled, isRunning] using hoff)

/-- Settles O41: the order of the tests in `instant`. -/
theorem resetWinsOverStepAndLoad : Obligations.ResetWinsOverStepAndLoad := fun s _ _ =>
  ⟨congrArg Host.Outcome.next (hostReset_eq s), rfl, fun _ _ => rfl, rfl⟩

/-- The signed reading of a Word (R11): its range, and its congruence to the Word. -/
theorem signed_range_and_congruent (w : Word) :
    -32768 ≤ signed w ∧ signed w ≤ 32767 ∧ signed w % 65536 = (w.toNat : Int) := by
  have hlt : w.toNat < 65536 := w.isLt
  unfold signed
  split <;> omega

/-- Settles O50: the observation copies the fields, and its signed presentation is R11's reading. -/
theorem observationIsExactAndSigned : Obligations.ObservationIsExactAndSigned := by
  refine fun x => ⟨rfl, rfl, rfl, rfl, fun r => ?_⟩
  obtain ⟨hlow, hhigh, hmod⟩ := signed_range_and_congruent (readReg x.core r)
  exact ⟨hlow, hhigh, hmod, signed_range_and_congruent x.core.pc⟩

end Sys2Proof.HostInterface
end

section
/-! PROOFS. The Loader obligations (50_host_interface.md section 2): the image of a file, the memory a list of
`LOAD_WORD`s leaves, and the launch state. -/

namespace Sys2Proof.HostInterface

open Sys2Proof.Machine Sys2Proof.Safety Sys2Proof.ExecutionLoop

/-! ## The image of a file (R104) -/

theorem length_imageOfBytes (order : ByteOrder) (bytes : List Byte) :
    (imageOfBytes order bytes).length = bytes.length / 2 := by
  fun_induction imageOfBytes order bytes with
  | case1 first second rest ih => simp only [List.length_cons, ih]; omega
  | case2 last => simp
  | case3 => rfl

theorem getD_imageOfBytes (order : ByteOrder) (bytes : List Byte) {k : Nat} (hk : k < bytes.length / 2) :
    (imageOfBytes order bytes).getD k 0#16 =
      wordOfBytes order (bytes.getD (2 * k) 0#8) (bytes.getD (2 * k + 1) 0#8) := by
  fun_induction imageOfBytes order bytes generalizing k with
  | case1 first second rest ih =>
    cases k with
    | zero => rfl
    | succ k => exact ih (by simp only [List.length_cons] at hk; omega)
  | case2 last => simp at hk
  | case3 => simp at hk

theorem toNat_append_bytes (high low : Byte) : (high ++ low : Word).toNat = high.toNat * 256 + low.toNat := by
  rw [BitVec.toNat_append, ← Nat.shiftLeft_add_eq_or_of_lt low.isLt, Nat.shiftLeft_eq]

/-- Settles O45, by induction along the pairs of bytes. -/
theorem imageWordsComeFromBytePairs : Obligations.ImageWordsComeFromBytePairs := by
  refine fun order bytes => ⟨length_imageOfBytes order bytes, fun k hk => ?_⟩
  rw [getD_imageOfBytes order bytes hk]
  cases order with
  | little => exact toNat_append_bytes _ _
  | big => exact toNat_append_bytes _ _

/-! ## The core a load leaves (R102, R103, R106, R107) -/

/-- The core a load of the image leaves, whether launched or failed, from whatever state. -/
def loadedCore (im : Image) : State := applyLoads (loaderWrites im) State.reset

theorem launch_of_loadFails {im : Image} (h : loadFails im = true) (s : State) :
    launch im s = .failed (loadedCore im) := by
  rw [launch_eq, if_pos h]; rfl

theorem launch_of_accepted {img : List Word} (hlen : img.length < 65536) (s : State) :
    launch (.words img) s = .launched (loadedCore (.words img)) := by
  rw [launch_eq, if_neg (not_loadFails_of_length_lt hlen)]; rfl

theorem readReg_loadedCore (im : Image) (r : Reg) : readReg (loadedCore im) r = 0x0000#16 :=
  (readReg_of_regs (applyLoads_regs _ _) r).trans (readReg_reset r)

theorem loadedCore_pc (im : Image) : (loadedCore im).pc = 0x0000#16 := applyLoads_pc _ _

theorem loadedCore_run (im : Image) : (loadedCore im).run = true := applyLoads_run _ _

theorem loadedCore_canonical (im : Image) : MemoryCanonical (loadedCore im) := applyLoads_wf _ Memory.wf_reset

theorem memRead_memWrite {s : State} (hs : MemoryCanonical s) (a v b : Word) :
    memRead (memWrite s a v) b = if b = a then v else memRead s b :=
  Memory.readWord_writeWord hs a v b

/-- `LOAD_WORD`s leave every other cell as it was (R34). -/
theorem memRead_applyLoads_of_not_written {l : List (Word × Word)} {a : Word} (ha : ∀ p ∈ l, p.1 ≠ a) {s : State}
    (hs : MemoryCanonical s) : memRead (applyLoads l s) a = memRead s a := by
  induction l generalizing s with
  | nil => rfl
  | cons p l ih =>
    obtain ⟨hp, hl⟩ := List.forall_mem_cons.1 ha
    calc memRead (applyLoads (p :: l) s) a
      _ = memRead (memWrite s p.1 p.2) a := ih hl (memWrite_keeps_canonical p.1 p.2 hs)
      _ = memRead s a := by rw [memRead_memWrite hs, if_neg hp.symm]

/-- A write at an address given as a number. -/
theorem memRead_memWrite_ofNat {k : Nat} (hk : k < 65536) {s : State} (hs : MemoryCanonical s) (v b : Word) :
    memRead (memWrite s (BitVec.ofNat 16 k) v) b = if b.toNat = k then v else memRead s b := by
  have haddr : b = BitVec.ofNat 16 k ↔ b.toNat = k := by
    rw [← BitVec.toNat_inj, BitVec.toNat_ofNat, Nat.mod_eq_of_lt hk]
  simp only [memRead_memWrite hs, haddr]

/-- Writing an image from address `k` on gives its Words there, and leaves what lies before and after it. -/
theorem memRead_applyLoads_imageWrites {img : List Word} {k : Nat} (hfit : k + img.length ≤ 65536) {s : State}
    (hs : MemoryCanonical s) (a : Word) :
    memRead (applyLoads (imageWrites k img) s) a =
      if k ≤ a.toNat then img.getD (a.toNat - k) (memRead s a) else memRead s a := by
  induction img generalizing k s with
  | nil => exact (ite_self _).symm
  | cons w img ih =>
    rw [List.length_cons] at hfit
    have hrest := ih (k := k + 1) (by omega) (memWrite_keeps_canonical (BitVec.ofNat 16 k) w hs)
    refine hrest.trans ?_
    rw [memRead_memWrite_ofNat (by omega) hs]
    obtain hlt | heq | hgt := Nat.lt_trichotomy a.toNat k
    · rw [if_neg (by omega), if_neg (by omega), if_neg (by omega)]
    · rw [if_neg (by omega), if_pos heq, if_pos (by omega), heq, Nat.sub_self, List.getD_cons_zero]
    · rw [if_pos (by omega), if_neg (by omega), if_pos (by omega), ← List.getD_cons_succ (x := w)]
      congr 1
      omega

theorem needsHalt_iff (img : List Word) : needsHalt img = true ↔ img.getLast? ≠ some 0x5000#16 := by
  unfold needsHalt
  split <;> simp_all [Config.haltWord]

/-- The appended halt Word is at address `N`, where R103 asks for one; nothing else is written. -/
theorem memRead_applyLoads_haltWrites {img : List Word} (hlen : img.length < 65536) {s : State}
    (hs : MemoryCanonical s) (a : Word) :
    memRead (applyLoads (haltWrites img) s) a =
      if a.toNat = img.length ∧ img.getLast? ≠ some 0x5000#16 then 0x5000#16 else memRead s a := by
  rw [haltWrites]
  by_cases hneeds : needsHalt img = true
  · have hlast : img.getLast? ≠ some 0x5000#16 := (needsHalt_iff img).1 hneeds
    rw [if_pos hneeds]
    simp only [and_iff_left hlast]
    exact memRead_memWrite_ofNat hlen hs Config.haltWord a
  · rw [if_neg hneeds, if_neg fun h => hneeds ((needsHalt_iff img).2 h.2)]
    rfl

/-- The memory of a launch state: the appended halt Word, and elsewhere the image with zeros after it. -/
theorem memRead_loadedCore_words {img : List Word} (hlen : img.length < 65536) (a : Word) :
    memRead (loadedCore (.words img)) a =
      if a.toNat = img.length ∧ img.getLast? ≠ some 0x5000#16 then 0x5000#16 else img.getD a.toNat 0x0000#16 := by
  have hwrites : loaderWrites (.words img) = imageWrites 0 img ++ haltWrites img :=
    if_neg (not_loadFails_of_length_lt hlen)
  rw [loadedCore, hwrites, applyLoads_append, memRead_applyLoads_haltWrites hlen (applyLoads_wf _ Memory.wf_reset),
    memRead_applyLoads_imageWrites (by omega) Memory.wf_reset, if_pos (Nat.zero_le _), memRead_reset, Nat.sub_zero]

/-- Settles O42: the image's writes, then the halt Word's, on the reset state. -/
theorem launchStateHoldsTheImage : Obligations.LaunchStateHoldsTheImage := by
  refine fun img s hlen => ⟨_, launch_of_accepted hlen s, fun a => ?_, readReg_loadedCore _, loadedCore_pc _,
    loadedCore_run _, loadedCore_canonical _⟩
  rw [memRead_loadedCore_words hlen]
  by_cases hin : a.toNat < img.length
  · rw [if_pos hin, if_neg fun h => hin.ne h.1]
  · rw [if_neg hin, List.getD_eq_default _ _ (Nat.le_of_not_lt hin)]

/-- Settles O44: floor(length/2) Words are 65536 or more exactly when the bytes are 131072 or more. -/
theorem fileLoadsExactlyWhenReadableAndSmall : Obligations.FileLoadsExactlyWhenReadableAndSmall := by
  intro file s
  cases file with
  | unreadable bytes => exact ⟨_, launch_of_loadFails (loadFails_unreadable _) s⟩
  | readable bytes =>
    have hlen := length_imageOfBytes Config.imageByteOrder bytes
    by_cases hlarge : 131072 ≤ bytes.length
    · have hfails : loadFails (imageOfFile Config.imageByteOrder (.readable bytes)) = true :=
        (loadFails_words _).2 (by omega)
      exact (if_pos hlarge).mpr ⟨_, launch_of_loadFails hfails s⟩
    · exact (if_neg hlarge).mpr ⟨_, launch_of_accepted (by omega) s⟩

end Sys2Proof.HostInterface
end

section
/-! PROOFS. The program run obligations (50_host_interface.md section 4): a run is a load and then plain steps, it ends
in one way, and runs in turn see nothing of each other. -/

namespace Sys2Proof.HostInterface

open Sys2Proof.Machine Sys2Proof.Safety Sys2Proof.ExecutionLoop

/-! ## Plain steps to the halt -/

/-- Once halted, a run stays where it is. -/
theorem runSteps_of_halted_of_le {m n : Nat} {s t : State} (hsteps : runSteps m s = .next t) (ht : Halted t)
    (hmn : m ≤ n) : runSteps n s = .next t := by
  induction hmn with
  | refl => exact hsteps
  | step _ ih => exact (runSteps_succ_last ih).trans (step_of_halted ht)

/-- All halted ends of one run are the same state. -/
theorem halted_end_unique {m n : Nat} {s t u : State} (ht : runSteps m s = .next t) (hthalt : Halted t)
    (hu : runSteps n s = .next u) (huhalt : Halted u) : t = u := by
  obtain hmn | hnm := Nat.le_total m n
  · exact Host.Outcome.next.inj ((runSteps_of_halted_of_le ht hthalt hmn).symm.trans hu)
  · exact Host.Outcome.next.inj (ht.symm.trans (runSteps_of_halted_of_le hu huhalt hnm))

theorem loadedCore_halts {img : List Word} (hlen : img.length < 65536) :
    ∃ t, Halted t ∧ ∀ fuel, img.length + 1 ≤ fuel → runSteps fuel (loadedCore (.words img)) = .next t := by
  obtain ⟨u, hlaunch, h, t, hh, -, hsteps, ht, -⟩ := everyLoadedImageHalts img State.reset hlen
  rw [launch_of_accepted hlen] at hlaunch
  cases hlaunch
  exact ⟨t, ht, fun fuel hfuel => runSteps_of_halted_of_le hsteps ht (by omega)⟩

/-! ## A program run as its load and its steps (R111) -/

/-- With `go` asserted the host's loop ends where plain steps end. -/
theorem stepUntilHalted_eq {fuel : Nat} {s t : State} (h : runSteps fuel s = .next t) :
    stepUntilHalted fuel { core := s, go := true } = .next { core := t, go := true } := by
  induction fuel generalizing s with
  | zero =>
    cases h
    rfl
  | succ fuel ih =>
    cases hs : s.run with
    | false =>
      rw [runSteps_of_halted hs] at h
      cases h
      simp [stepUntilHalted, isRunning, hs]
    | true =>
      obtain ⟨u, hstep, -⟩ := step_frame hs
      rw [runSteps_succ hstep] at h
      simp [stepUntilHalted, isRunning, hs, transact, stepWhen, hstep, ih h]

/-- Where `runToEnd` leaves core and `go`, and what it reports, from where plain steps end. -/
theorem runToEnd_eq {fuel : Nat} {s t : State} (h : runSteps fuel s = .next t) :
    runToEnd fuel { core := s, go := true } =
      if t.run then .next ({ core := t, go := true }, .notYetHalted)
      else .next ({ core := t, go := false }, .halted (observe t)) := by
  rw [runToEnd, stepUntilHalted_eq h]
  rfl

theorem programRun_of_loadFails {im : Image} (h : loadFails im = true) (fuel : Nat) {x : HostSystem}
    (hx : x.go = false) : programRun fuel im x = .next ({ core := loadedCore im, go := false }, .loadFailure) := by
  obtain ⟨s, go⟩ := x
  cases hx
  rw [programRun_eq, if_pos h]
  rfl

theorem programRun_of_not_loadFails {im : Image} (h : ¬ loadFails im = true) {fuel : Nat} {x : HostSystem}
    (hx : x.go = false) {t : State} (ht : runSteps fuel (loadedCore im) = .next t) :
    programRun fuel im x =
      if t.run then .next ({ core := t, go := true }, .notYetHalted)
      else .next ({ core := t, go := false }, .halted (observe t)) := by
  obtain ⟨s, go⟩ := x
  cases hx
  rw [programRun_eq, if_neg h]
  exact runToEnd_eq ht

/-- Settles O43: the load fails, so the run ends with the core the load left. -/
theorem unloadableImageIsNeverRun : Obligations.UnloadableImageIsNeverRun := by
  intro im s hlarge
  have hfails : loadFails im = true := by
    cases im with
    | words img => exact (loadFails_words img).2 (hlarge img rfl)
    | unreadable got => rfl
  refine ⟨_, launch_of_loadFails hfails s, readReg_loadedCore im, loadedCore_pc im, loadedCore_run im,
    loadedCore_canonical im, fun a ha => ?_, fun fuel => programRun_of_loadFails hfails fuel rfl⟩
  have hwrites : loaderWrites im = Config.partialLoad im.read := if_pos hfails
  rw [loadedCore, hwrites, memRead_applyLoads_of_not_written ha Memory.wf_reset, memRead_reset]

/-- Settles O47: the run is plain steps from the launch state, which an accepted image halts in `N + 1`. -/
theorem programRunIsLaunchThenSteps : Obligations.ProgramRunIsLaunchThenSteps := by
  intro img fuel x hx hlen
  obtain ⟨t, ht, -⟩ := stepsNeverWriteMemory fuel (loadedCore (.words img))
  refine ⟨_, t, launch_of_accepted hlen, ht, fun hfuel => ?_,
    programRun_of_not_loadFails (not_loadFails_of_length_lt hlen) hx ht⟩
  obtain ⟨u, hu, hsteps⟩ := loadedCore_halts hlen
  obtain rfl := Host.Outcome.next.inj (ht.symm.trans (hsteps fuel hfuel))
  exact hu

/-! ## The one end of a program run (R92, R106) -/

theorem programRunEnds_iff_of_loadFails {im : Image} (h : loadFails im = true) {x : HostSystem} (hx : x.go = false)
    (y : HostSystem) (r : RunReport) :
    ProgramRunEnds im x y r ↔ y = { core := loadedCore im, go := false } ∧ r = .loadFailure := by
  simp only [ProgramRunEnds, programRun_of_loadFails h _ hx, exists_const, Host.Outcome.next.injEq, Prod.mk.injEq]
  constructor
  · rintro ⟨-, rfl, rfl⟩
    exact ⟨rfl, rfl⟩
  · rintro ⟨rfl, rfl⟩
    exact ⟨by decide, rfl, rfl⟩

/-- A program run that is launched ends at the halted state its steps reach, and with no other. -/
theorem programRunEnds_iff_of_halts {im : Image} (h : ¬ loadFails im = true) {x : HostSystem} (hx : x.go = false)
    {fuel : Nat} {t : State} (ht : runSteps fuel (loadedCore im) = .next t) (hhalt : Halted t)
    (y : HostSystem) (r : RunReport) :
    ProgramRunEnds im x y r ↔ y = { core := t, go := false } ∧ r = .halted (observe t) := by
  constructor
  · rintro ⟨hr, fuel', hrun⟩
    obtain ⟨u, hu, -⟩ := stepsNeverWriteMemory fuel' (loadedCore im)
    rw [programRun_of_not_loadFails h hx hu] at hrun
    split at hrun
    · cases hrun
      exact absurd rfl hr
    next huhalt =>
      obtain rfl : t = u := halted_end_unique ht hhalt hu (Bool.eq_false_iff.2 huhalt)
      cases hrun
      exact ⟨rfl, rfl⟩
  · rintro ⟨rfl, rfl⟩
    refine ⟨by simp, fuel, ?_⟩
    rw [programRun_of_not_loadFails h hx ht, if_neg (Bool.eq_false_iff.1 hhalt)]

/-- Settles O48: a failed load is the one end there is; an accepted image halts, and its halted ends are all one. -/
theorem everyProgramRunEndsInOneWay : Obligations.EveryProgramRunEndsInOneWay := by
  intro im x hx
  by_cases hfails : loadFails im = true
  · have hends := programRunEnds_iff_of_loadFails hfails hx
    refine ⟨_, _, (hends _ _).2 ⟨rfl, rfl⟩, rfl, fun y r => (hends y r).1, ?_⟩
    cases im with
    | words img => exact (if_pos ((loadFails_words img).1 hfails)).mpr rfl
    | unreadable got => rfl
  · cases im with
    | unreadable got => exact absurd rfl hfails
    | words img =>
      have hlen : ¬ 65536 ≤ img.length := mt (loadFails_words img).2 hfails
      obtain ⟨t, ht, hsteps⟩ := loadedCore_halts (Nat.lt_of_not_le hlen)
      have hends := programRunEnds_iff_of_halts hfails hx (hsteps _ le_rfl) ht
      exact ⟨_, _, (hends _ _).2 ⟨rfl, rfl⟩, rfl, fun y r => (hends y r).1, (if_neg hlen).mpr ⟨ht, rfl⟩⟩

/-! ## Runs in turn (R134) -/

/-- A program run depends on the image alone: RESET erases whatever the core held. -/
theorem programRun_eq_from_reset (fuel : Nat) (im : Image) {x : HostSystem} (hx : x.go = false) :
    programRun fuel im x = programRun fuel im { core := State.reset, go := false } := by
  obtain ⟨s, go⟩ := x
  cases hx
  rw [programRun_eq, programRun_eq]

theorem go_of_programRun_ended {fuel : Nat} {im : Image} {x y : HostSystem} {r : RunReport} (hx : x.go = false)
    (hrun : programRun fuel im x = .next (y, r)) (hr : r ≠ .notYetHalted) : y.go = false := by
  obtain ⟨y', r', -, hgo, hunique, -⟩ := everyProgramRunEndsInOneWay im x hx
  obtain ⟨rfl, -⟩ := hunique y r ⟨hr, fuel, hrun⟩
  exact hgo

/-- Settles O49, by induction on the images: each ends with `go` not asserted, and the next starts with a RESET. -/
theorem runsInTurnDoNotInterfere : Obligations.RunsInTurnDoNotInterfere := by
  intro fuel ims reports x hx halone
  induction halone generalizing x with
  | nil => exact ⟨x, rfl, hx⟩
  | @cons im r ims reports hfirst _ ih =>
    obtain ⟨hr, y, hrun⟩ := hfirst
    obtain ⟨z, hrest, hz⟩ := ih y (go_of_programRun_ended rfl hrun hr)
    refine ⟨z, ?_, hz⟩
    rw [programRuns, programRun_eq_from_reset fuel im hx, hrun, andThen_next, if_neg hr, hrest, andThen_next]

end Sys2Proof.HostInterface
end

section
/-! PROOFS. The exception obligation (60_exceptions.md section 1): every handler, step and transaction completes, so
nothing is ever raised. -/

namespace Sys2Proof.Exceptions

open Sys2Proof.Machine

theorem exec_completes (i : Instr) (s : State) : ∃ t, exec i s = .next t := by
  obtain ⟨t, hexec, -⟩ := exec_frame i s
  exact ⟨t, hexec⟩

theorem step_completes (s : State) : ∃ t, step s = .next t := by
  obtain ⟨t, hstep, -⟩ := step_keeps_mem s
  exact ⟨t, hstep⟩

theorem stepWhen_completes (go : Bool) (s : State) : ∃ t, stepWhen go s = .next t := by
  cases go with
  | false => exact ⟨s, rfl⟩
  | true => exact step_completes s

/-- Of the host's transactions only STEP runs a handler; the others answer outright (R98). -/
theorem transact_completes (tx : Transaction) (x : HostSystem) : ∃ y, transact tx x = .next y := by
  cases tx with
  | reset | loadWord | observe | setGo => exact ⟨_, rfl⟩
  | step =>
    obtain ⟨t, hstep⟩ := stepWhen_completes x.go x.core
    exact ⟨{ x with core := t }, by rw [transact, hstep, andThen_next]⟩

/-- Settles O29: the handler completes, hence the step, running or idle, hence the transaction. -/
theorem nothingFaultsOrIsRefused : Obligations.NothingFaultsOrIsRefused :=
  ⟨exec_completes, step_completes, transact_completes⟩

end Sys2Proof.Exceptions
end

section
/-! PROOFS. The two sanity obligations: the memory list at reset (10_state.md section 7), and the Words written out from
the encoding (95_test_vectors.md 2.1 and 2.2). -/

namespace Sys2Proof.Sanity

open Sys2Proof.Machine Sys2Proof.Encoding

/-- Settles O2: the reset state's list has no entry, and RESET gives the reset state whatever came before. -/
theorem resetMemoryIsCanonical : Obligations.ResetMemoryIsCanonical := by
  refine ⟨Memory.wf_reset, fun s => ?_⟩
  rw [hostReset_eq]
  exact Memory.wf_reset

/-- The Word of opcode 9 written out is no canonical one: the bits under its opcode are ignored (R50). -/
theorem decode_written_undefined9 : decode 0b1001_101_010_111_100#16 = .undefined9 :=
  (ignoredBitsDoNotMatter _ (encode .undefined9) (by decide)).trans (decodeOfEncodeIsTheInstruction .undefined9 rfl)

/-- Settles O12: six of the Words are the canonical encodings of their instructions; the seventh has ignored bits set. -/
theorem writtenOutWordsDecode : Obligations.WrittenOutWordsDecode :=
  ⟨decodeOfEncodeIsTheInstruction (.add .r1 .r2 .r3) rfl,
    decodeOfEncodeIsTheInstruction (.decrement .r3 .r4 0xFFFF#16) rfl,
    decodeOfEncodeIsTheInstruction (.and .r4 .r3 .r2) rfl,
    decodeOfEncodeIsTheInstruction (.xor .r3 .r2 .r1) rfl,
    decodeOfEncodeIsTheInstruction (.load .r7 0xFFF0#16) rfl,
    decodeOfEncodeIsTheInstruction .halt rfl,
    decode_written_undefined9⟩

end Sys2Proof.Sanity
end
